-- ==== Sys2Proof/Word.lean ====
section
/-! DEFINITION. The data word of the machine: the Nibble (00_scope.md R1) and its masking (R2). -/

namespace Sys2Proof

/-- A Nibble: a 4-bit unsigned value, 0 to 15 (R1). Registers, cells, opcodes, operands and ALU results are Nibbles. -/
abbrev Nibble := BitVec 4

/-- `mask4(v) = v mod 16`, for any natural number (R2). -/
def mask4 (v : Nat) : Nibble := BitVec.ofNat 4 v

end Sys2Proof
end

