-- ==== Sys2Proof/Machine/Alu.lean ====
section
/-! DEFINITION. The combinational datapath, leaves first: gates, half adder, full adder, ripple chain, arithmetic unit
(40_datapath_adders.md R70 to R85). None of these holds state. -/

namespace Sys2Proof.Machine

/-- The three kinds of gate; there is no other (R73). -/
inductive GateKind where
  | and
  | or
  | xor
deriving DecidableEq, Repr

/-- `evaluate(kind, a, b)`: the exact truth tables (R70, R71, R72, R73; 00_scope.md R7). -/
def evaluate : GateKind → Bool → Bool → Bool
  | .and, a, b => a && b
  | .or, a, b => a || b
  | .xor, a, b => a != b

/-- The two outputs of an adder (R74, R75). -/
structure AdderOutput where
  sum : Bool
  carry : Bool
deriving DecidableEq, Repr

/-- HalfAdder: one XOR gate and one AND gate (R74). -/
def halfAdder (a b : Bool) : AdderOutput where
  sum := evaluate .xor a b
  carry := evaluate .and a b

/-- FullAdder: two half adders and one OR gate (R75). -/
def fullAdder (a b carryIn : Bool) : AdderOutput :=
  let r1 := halfAdder a b
  let r2 := halfAdder r1.sum carryIn
  { sum := r2.sum, carry := evaluate .or r1.carry r2.carry }

/-- The ripple chain, a stage for each pair of bits, least significant first: the carry out of a stage is the carry into
the next (R79). Gives the sum bits and the last carry. -/
def rippleChain : List (Bool × Bool) → Bool → List Bool × Bool
  | [], carryIn => ([], carryIn)
  | (a, b) :: stages, carryIn =>
    let f := fullAdder a b carryIn
    let rest := rippleChain stages f.carry
    (f.sum :: rest.1, rest.2)

/-- The four bits of a Nibble, least significant first (R78). -/
def bitsOf (v : Nibble) : List Bool := [v.getLsbD 0, v.getLsbD 1, v.getLsbD 2, v.getLsbD 3]

/-- The number that bits spell, least significant first (R78). -/
def bitsToNat : List Bool → Nat
  | [] => 0
  | b :: bits => b.toNat + 2 * bitsToNat bits

/-- The two operations of the unit (R77). -/
inductive AluOp where
  | add
  | subtract
deriving DecidableEq, Repr

/-- ArithmeticResult (R77). -/
structure ArithmeticResult where
  result : Nibble
  carry : Bool
  zero : Bool
deriving DecidableEq, Repr

/-- The bit that inverts `b` and is the carry into stage 0: 1 for Subtract, 0 for Add (R85). -/
def subBit : AluOp → Bool
  | .add => false
  | .subtract => true

/-- `ALU(a, b, op)` (R77 to R82): operands masked to 4 bits, `b` inverted by XOR gates for Subtract (R85), the ripple
chain, and the zero test of the result alone (R82). -/
def alu (a b : Nat) (op : AluOp) : ArithmeticResult :=
  let sub := subBit op
  let chain := rippleChain ((bitsOf (mask4 a)).zip ((bitsOf (mask4 b)).map (evaluate .xor · sub))) sub
  let result := mask4 (bitsToNat chain.1)
  { result := result, carry := chain.2, zero := result == 0 }

end Sys2Proof.Machine
end

