-- ==== Sys2Proof/Syntax.lean ====
section
/-! DEFINITION. The instruction set as syntax: one constructor for each row of spec/opcode_table.json
(30_encoding.md R54). An operand is a Nibble, because the operand is the whole value of one cell and every value from
0 to 15 is legal (R53, R56). -/

namespace Sys2Proof

/-- The 16 instructions. The nine `undef` rows decode to NoOp (R55, R131) and have a constructor each, as the table has
a row each: their words differ, so encoding a decoded instruction gives back the very cells. -/
inductive Instr where
  /-- 0x0 NOP (R130). -/
  | nop
  /-- 0x1 LOAD @a (R110). -/
  | load (a : Nibble)
  /-- 0x2 STORE @a (R111). -/
  | store (a : Nibble)
  /-- 0x3 ADD @a (R120). -/
  | add (a : Nibble)
  /-- 0x4 SUB @a (R121). -/
  | sub (a : Nibble)
  /-- 0x5 LDI i (R112). -/
  | ldi (i : Nibble)
  /-- 0x6, undefined, a NoOp (R131). -/
  | undef6
  /-- 0x7, undefined, a NoOp (R131). -/
  | undef7
  /-- 0x8, undefined, a NoOp (R131). -/
  | undef8
  /-- 0x9, undefined, a NoOp (R131). -/
  | undef9
  /-- 0xA, undefined, a NoOp (R131). -/
  | undefA
  /-- 0xB, undefined, a NoOp (R131). -/
  | undefB
  /-- 0xC, undefined, a NoOp (R131). -/
  | undefC
  /-- 0xD, undefined, a NoOp (R131). -/
  | undefD
  /-- 0xE, undefined, a NoOp (R131). -/
  | undefE
  /-- 0xF HALT (R132). -/
  | halt
deriving DecidableEq, Repr

end Sys2Proof
end

