-- ==== Sys2Proof/WellFormed.lean ====
section
/-! DEFINITION. Which terms are well formed. An `Instr` always is: its operand is a Nibble and every operand value is
legal for every opcode (30_encoding.md R56). What can be ill formed is a source line, whose operand is a number an
assembler must check (R60). The form of memory is `Machine.Memory.wf`, beside State. -/

namespace Sys2Proof

/-- A line of assembler source, R59: an instruction with its operand as a number, or the data directive `.cell v`. -/
inductive AsmLine where
  | nop
  | load (a : Nat)
  | store (a : Nat)
  | add (a : Nat)
  | sub (a : Nat)
  | ldi (i : Nat)
  | halt
  | cell (v : Nat)
deriving DecidableEq, Repr

/-- The number a source line carries, if it carries one. -/
def AsmLine.operand : AsmLine → Option Nat
  | .nop => none
  | .load a => some a
  | .store a => some a
  | .add a => some a
  | .sub a => some a
  | .ldi i => some i
  | .halt => none
  | .cell v => some v

/-- R60: the operand of a source line is from 0 to 15. -/
def AsmLine.wf (l : AsmLine) : Bool :=
  match l.operand with
  | none => true
  | some v => v ≤ 15

end Sys2Proof
end

