-- ==== Sys2Proof/Decode.lean ====
section
/-! DEFINITION. The decoder, total on any list of cells, and after it the encoder, both from the opcode map of
30_encoding.md R54. An instruction is one or two consecutive cells (R50); the opcode is the whole first cell (R51) and
alone decides the length (R52); the operand is the whole second cell (R53). -/

namespace Sys2Proof

/-- What one opcode stands for (R54): an instruction of format N, or one of format A that waits for its operand. -/
inductive OpcodeEntry where
  /-- Format N: the instruction is whole. -/
  | noOperand (i : Instr)
  /-- Format A: the instruction for each operand. -/
  | withOperand (mk : Nibble → Instr)

/-- The opcode map of R54, a row for each 4-bit value. The last row is 0xF: it is the one value left of the 16. -/
def opcodeMap (op : Nibble) : OpcodeEntry :=
  match op with
  | 0x0#4 => .noOperand .nop
  | 0x1#4 => .withOperand .load
  | 0x2#4 => .withOperand .store
  | 0x3#4 => .withOperand .add
  | 0x4#4 => .withOperand .sub
  | 0x5#4 => .withOperand .ldi
  | 0x6#4 => .noOperand .undef6
  | 0x7#4 => .noOperand .undef7
  | 0x8#4 => .noOperand .undef8
  | 0x9#4 => .noOperand .undef9
  | 0xA#4 => .noOperand .undefA
  | 0xB#4 => .noOperand .undefB
  | 0xC#4 => .noOperand .undefC
  | 0xD#4 => .noOperand .undefD
  | 0xE#4 => .noOperand .undefE
  | _ => .noOperand .halt

/-- Why a list of cells spells no instruction. No value of a cell is a reason (R56): only a list that ends too soon is,
and the memory, which wraps, never ends (R58). -/
inductive DecodeError where
  /-- The list is empty. -/
  | noOpcodeCell
  /-- The opcode takes an operand and the list ends after it. -/
  | noOperandCell
deriving DecidableEq, Repr

/-- Decodes the instruction at the head of a list of cells and gives the cells after it. -/
def decodeCells (cells : List Nibble) : Except DecodeError (Instr × List Nibble) :=
  match cells with
  | [] => .error .noOpcodeCell
  | op :: rest =>
    match opcodeMap op with
    | .noOperand i => .ok (i, rest)
    | .withOperand mk =>
      match rest with
      | [] => .error .noOperandCell
      | a :: rest' => .ok (mk a, rest')

/-- The opcode of an instruction (R54). -/
def Instr.opcode : Instr → Nibble
  | .nop => 0x0
  | .load _ => 0x1
  | .store _ => 0x2
  | .add _ => 0x3
  | .sub _ => 0x4
  | .ldi _ => 0x5
  | .undef6 => 0x6
  | .undef7 => 0x7
  | .undef8 => 0x8
  | .undef9 => 0x9
  | .undefA => 0xA
  | .undefB => 0xB
  | .undefC => 0xC
  | .undefD => 0xD
  | .undefE => 0xE
  | .halt => 0xF

/-- The operand of an instruction of format A (R50, R53). -/
def Instr.operand : Instr → Option Nibble
  | .nop => none
  | .load a => some a
  | .store a => some a
  | .add a => some a
  | .sub a => some a
  | .ldi i => some i
  | .undef6 => none
  | .undef7 => none
  | .undef8 => none
  | .undef9 => none
  | .undefA => none
  | .undefB => none
  | .undefC => none
  | .undefD => none
  | .undefE => none
  | .halt => none

/-- The cells of an instruction (R50): the opcode, then the operand where there is one. -/
def encode (i : Instr) : List Nibble := i.opcode :: i.operand.toList

/-- The cells that a word of the opcode table stands for, at the longest instruction's length. A cell is the hardware's
word, so the opcode cell is bits 3..0 and the operand cell bits 7..4; bits from `nbits` on are 0 (DEDUCED, log 4). -/
def tableWordCells (nbits w : Nat) : List Nibble :=
  [mask4 (w % 2 ^ nbits), mask4 (w % 2 ^ nbits / 16)]

/-- The instruction the decoder reads from a word numbered as spec/opcode_table.json numbers it. -/
def decodeTableWord (nbits w : Nat) : Option Instr :=
  match decodeCells (tableWordCells nbits w) with
  | .ok (i, _) => some i
  | .error _ => none

end Sys2Proof
end

