-- ==== Sys2Proof/Config.lean ====
section
/-! DEFINITION. What is fixed for the machine. Nothing is configurable (00_scope.md R1, R3, R5), and no result is left
open by the spec (93_implementation_defined.md §1), so there is no free value here. The two OPEN parameters of
00_scope.md §4 are not constants of the machine: `fuel` is an argument of `Machine.runBounded` (92 D16), and
`gate_delay` is used by no rule (92 D15) and is left out with every other delay (00_scope.md §3). -/

namespace Sys2Proof.Config

/-- The number of memory cells, and of cell addresses (R3, R30). -/
abbrev cellCount : Nat := 16

/-- PC after reset: the first opcode is fetched from cell 0 (70_reset_and_hazards.md R161). -/
def resetVector : Nibble := 0

/-- What a cell that memory does not list holds: 0, the value of every cell at reset (10_state.md R24, R160). -/
def unlistedByte : BitVec 8 := 0

end Sys2Proof.Config
end

