-- ==== Sys2Proof/Machine/State.lean ====
section
/-! DEFINITION. The state of one processor instance (10_state.md R10), the reasons a step could stop, and the state after
reset (10_state.md R24, 70_reset_and_hazards.md R160). -/

namespace Sys2Proof.Machine

/-- The run state (R20). -/
inductive RunState where
  | running
  | halted
deriving DecidableEq, Repr

/-- The faults of the machine: none. "A model therefore has no fault outcome for any input" (60_exceptions.md R140), so
no constructor raises one. -/
inductive Fault where
deriving DecidableEq, Repr

/-- The refusals of the machine. -/
inductive Refusal where
  /-- Raised by `exec`'s arm of an instruction that has no meaning yet; no arm raises it. Safe: a run stops there. -/
  | notModelled (mnemonic : String)
deriving DecidableEq, Repr

/-- The memory bank `M` (20_memory.md R30) as a list of cells. The Nibble of a cell is the low half of the pair's byte,
whose high half is 0; a cell that is not listed holds `Config.unlistedByte` (DESIGN CHOICE, log 1). -/
abbrev Memory := List Host.Cell

/-- The canonical form: addresses strictly rising and below 16 (R30), each byte a Nibble (R2) and not the value that an
unlisted cell holds. Equal memories are then equal lists. -/
abbrev Memory.wf (m : Memory) : Prop :=
  m.Pairwise (fun x y => x.1 < y.1) ∧
    ∀ x ∈ m, x.1 < Config.cellCount ∧ x.2.toNat < 16 ∧ x.2 ≠ Config.unlistedByte

/-- The architectural state `(AC, PC, IR, Z, C, run, M)` of R10. Nothing else is state. -/
structure State where
  /-- Accumulator (R11). -/
  ac : Nibble
  /-- ProgramCounter: the address of the next cell to fetch (R12). -/
  pc : Nibble
  /-- InstructionRegister: the value of the last cell fetched (R14). -/
  ir : Nibble
  /-- Zero flag, a bit of its own and not computed from AC (R15, note after R24). -/
  z : Bool
  /-- Carry flag (R15). -/
  c : Bool
  /-- Run state (R20). -/
  run : RunState
  /-- The memory bank (R30). -/
  mem : Memory
deriving DecidableEq, Repr

/-- The state after power-on reset: every value as R24 and R160 state it. -/
def State.reset : State where
  ac := 0
  pc := Config.resetVector
  ir := 0
  z := false
  c := false
  run := .running
  mem := []

/-- What an operation of the machine answers. -/
abbrev Result := Host.Outcome State Fault Refusal

end Sys2Proof.Machine
end

