-- ==== Sys2Proof/Machine/Ops.lean ====
section
/-! DEFINITION. The named operations over memory and registers, and the fetch. Every access to a cell or a register goes
through them. There is no operation that takes an exception and none that returns from one: the hardware has no trap
entry and no trap return (60_exceptions.md R140, R142, R143). -/

namespace Sys2Proof.Machine

/-! Memory: 20_memory.md R30 to R41. -/

/-- The byte listed at an address, or what an unlisted cell holds. -/
def Memory.lookupByte (k : Nat) : Memory → BitVec 8
  | [] => Config.unlistedByte
  | (a, b) :: rest => if a = k then b else Memory.lookupByte k rest

/-- The list without its entries at an address. -/
def Memory.eraseCell (k : Nat) (m : Memory) : Memory := m.filter (fun x => x.1 != k)

/-- The list with one more entry, before the first entry at a higher address. -/
def Memory.insertCell (k : Nat) (b : BitVec 8) : Memory → Memory
  | [] => [(k, b)]
  | (a, x) :: rest => if k < a then (k, b) :: (a, x) :: rest else (a, x) :: Memory.insertCell k b rest

/-- `MemRead(addr, 1)` = `M[addr mod 16]` (R31, R32). -/
def Memory.read (m : Memory) (addr : Nat) : Nibble :=
  (m.lookupByte (addr % Config.cellCount)).setWidth 4

/-- `MemWrite(addr, 1, v)`: `M[addr mod 16] <- v mod 16` (R31, R33), in canonical form. -/
def Memory.write (m : Memory) (addr v : Nat) : Memory :=
  let k := addr % Config.cellCount
  let b := (mask4 v).setWidth 8
  if b = Config.unlistedByte then m.eraseCell k else (m.eraseCell k).insertCell k b

/-- Writes values into consecutive cells from an address on. -/
def Memory.writeCells (m : Memory) (addr : Nat) : List Nat → Memory
  | [] => m
  | v :: vs => Memory.writeCells (m.write addr v) (addr + 1) vs

/-- `load_program(bytes)` (R38): cells 0 to `min(len, 16) - 1` take the bytes modulo 16, the excess is dropped. -/
def Memory.loadProgram (m : Memory) (bytes : List Nat) : Memory :=
  m.writeCells 0 (bytes.take Config.cellCount)

/-- `clear()` (R39): all 16 cells become 0, which is the empty list. -/
def Memory.clear (_ : Memory) : Memory := []

/-- `dump()` (R40): the 16 cell values in ascending address order. -/
def Memory.dump (m : Memory) : List Nibble := (List.range Config.cellCount).map m.read

/-- `MemRead` on the state's memory. -/
def State.memRead (s : State) (addr : Nat) : Nibble := s.mem.read addr

/-- `MemWrite` on the state's memory. -/
def State.memWrite (s : State) (addr v : Nat) : State := { s with mem := s.mem.write addr v }

/-! Registers: 10_state.md R18, R19. -/

/-- The three 4-bit registers of the register file (10_state.md R18). -/
inductive Reg where
  | ac
  | pc
  | ir
deriving DecidableEq, Repr

/-- Reads a register (R18). -/
def State.readReg (s : State) : Reg → Nibble
  | .ac => s.ac
  | .pc => s.pc
  | .ir => s.ir

/-- Stores a Nibble in a register. -/
def State.setReg (s : State) : Reg → Nibble → State
  | .ac, v => { s with ac := v }
  | .pc, v => { s with pc := v }
  | .ir, v => { s with ir := v }

/-- `write(v)` stores `mask4(v)` (R18). -/
def State.writeReg (s : State) (r : Reg) (v : Nat) : State := s.setReg r (mask4 v)

/-- `increment` stores `(v + 1) mod 16` (R19). -/
def State.incReg (s : State) (r : Reg) : State := s.writeReg r ((s.readReg r).toNat + 1)

/-- `decrement` stores `(v + 15) mod 16` (R19). No instruction uses it. -/
def State.decReg (s : State) (r : Reg) : State := s.writeReg r ((s.readReg r).toNat + 15)

/-- `clear` stores 0 (R19). Only reset uses it. -/
def State.clearReg (s : State) (r : Reg) : State := s.writeReg r 0

/-- Stores the run state. HALT (R132) and the processor reset (R160) use it. -/
def State.setRun (s : State) (r : RunState) : State := { s with run := r }

/-- Stores both flags. `update_flags` (R15) and reset (R22) use it. -/
def State.setFlags (s : State) (z c : Bool) : State := { s with z := z, c := c }

/-- `RegisterFile.reset()` (R22): AC, PC, IR, Z and C become 0; memory and the run state stay. -/
def State.resetRegisterFile (s : State) : State :=
  (((s.clearReg .ac).clearReg .pc).clearReg .ir).setFlags false false

/-! Fetch and decode: 41_fsm_cycle.md R91, R92. -/

/-- `fetch()` (R91): the cell at PC goes into IR, PC is incremented modulo 16, the value is returned. -/
def fetch (s : State) : Nibble × State :=
  let v := s.memRead s.pc.toNat
  (v, (s.setReg .ir v).incReg .pc)

/-- The opcode fetch, then decode, which fetches the operand of opcodes 0x1 to 0x5 (R92). Gives the instruction and the
state in which it executes. -/
def fetchDecode (s : State) : Instr × State :=
  let opcode := fetch s
  match opcodeMap opcode.1 with
  | .noOperand i => (i, opcode.2)
  | .withOperand mk =>
    let operand := fetch opcode.2
    (mk operand.1, operand.2)

/-- The state with a word of the opcode table in the cells that the next fetches read, and Running, so that the next
cycle runs it (DESIGN CHOICE, log 5). Not an operation of the hardware. -/
def State.placeWord (s : State) (nbits w : Nat) : State :=
  { s with
    run := .running
    mem := s.mem.writeCells s.pc.toNat ((tableWordCells nbits w).map BitVec.toNat) }

end Sys2Proof.Machine
end

