-- ==== Sys2Proof/Machine/Flags.lean ====
section
/-! DEFINITION. The flag computation of the machine: `update_flags` is the only one (10_state.md R15, R16), and there are
two flags only (R17). -/

namespace Sys2Proof.Machine

/-- `Z` for a value: `mask4(value) == 0` (R15). -/
def zeroFlag (value : Nat) : Bool := mask4 value == 0

/-- `update_flags(value, carry)` (R15). -/
def State.updateFlags (s : State) (value : Nat) (carry : Bool) : State := s.setFlags (zeroFlag value) carry

/-- Writes AC and updates the flags with the value written and a carry: how LOAD, LDI, ADD and SUB end (R16). -/
def State.writeAccumulator (s : State) (v : Nibble) (carry : Bool) : State :=
  (s.setReg .ac v).updateFlags v.toNat carry

end Sys2Proof.Machine
end

