-- ==== Sys2Proof/Machine/Operands.lean ====
section
/-! DEFINITION. The two uses of an operand cell (30_encoding.md R53). There is no other addressing mode. -/

namespace Sys2Proof.Machine

/-- The cell address an address operand names: the operand as it stands (R53). -/
def operandAddress (a : Nibble) : Nat := a.toNat

/-- The value of the cell an address operand names: the data read of LOAD, ADD and SUB (20_memory.md R34). -/
def State.addressedCell (s : State) (a : Nibble) : Nibble := s.memRead (operandAddress a)

/-- The value of an immediate operand: the operand as it stands; no data cell is read (R53, R112). -/
def immediateValue (i : Nibble) : Nibble := i

end Sys2Proof.Machine
end

