-- ==== Sys2Proof/Machine/Arithmetic.lean ====
section
/-! DEFINITION. The execute phase of ADD and SUB (43_arithmetic.md). -/

namespace Sys2Proof.Machine

/-- AC and a cell through the arithmetic unit: the result into AC, the flags from the result and the unit's carry. -/
def State.accumulate (s : State) (a : Nibble) (op : AluOp) : State :=
  let r := alu s.ac.toNat (s.addressedCell a).toNat op
  s.writeAccumulator r.result r.carry

/-- ADD @a (R120). -/
def execAdd (a : Nibble) (s : State) : Result := .next (s.accumulate a .add)

/-- SUB @a (R121): the carry is set when there was no borrow (R81). -/
def execSub (a : Nibble) (s : State) : Result := .next (s.accumulate a .subtract)

end Sys2Proof.Machine
end

