-- ==== Sys2Proof/Machine/Control.lean ====
section
/-! DEFINITION. The execute phase of NOP, the undefined opcodes and HALT (44_control.md). -/

namespace Sys2Proof.Machine

/-- NoOp does nothing beyond the fetch (R130). -/
def noOp (s : State) : Result := .next s

/-- NOP (R130). -/
def execNop (s : State) : Result := noOp s

/-- Opcode 0x6: undefined, a NoOp (R131). -/
def execUndef6 (s : State) : Result := noOp s

/-- Opcode 0x7: undefined, a NoOp (R131). -/
def execUndef7 (s : State) : Result := noOp s

/-- Opcode 0x8: undefined, a NoOp (R131). -/
def execUndef8 (s : State) : Result := noOp s

/-- Opcode 0x9: undefined, a NoOp (R131). -/
def execUndef9 (s : State) : Result := noOp s

/-- Opcode 0xA: undefined, a NoOp (R131). -/
def execUndefA (s : State) : Result := noOp s

/-- Opcode 0xB: undefined, a NoOp (R131). -/
def execUndefB (s : State) : Result := noOp s

/-- Opcode 0xC: undefined, a NoOp (R131). -/
def execUndefC (s : State) : Result := noOp s

/-- Opcode 0xD: undefined, a NoOp (R131). -/
def execUndefD (s : State) : Result := noOp s

/-- Opcode 0xE: undefined, a NoOp (R131). -/
def execUndefE (s : State) : Result := noOp s

/-- HALT (R132). -/
def execHalt (s : State) : Result := .next (s.setRun .halted)

end Sys2Proof.Machine
end

