-- ==== Sys2Proof/Machine/DataTransfer.lean ====
section
/-! DEFINITION. The execute phase of LOAD, STORE and LDI (42_data_transfer.md). The fetches have run: PC is past the
instruction and IR holds the operand. -/

namespace Sys2Proof.Machine

/-- LOAD @a (R110). -/
def execLoad (a : Nibble) (s : State) : Result :=
  .next (s.writeAccumulator (s.addressedCell a) false)

/-- STORE @a (R111): no flag is written. -/
def execStore (a : Nibble) (s : State) : Result :=
  .next (s.memWrite (operandAddress a) s.ac.toNat)

/-- LDI i (R112). -/
def execLdi (i : Nibble) (s : State) : Result :=
  .next (s.writeAccumulator (immediateValue i) false)

end Sys2Proof.Machine
end

