-- ==== Sys2Proof/Machine/Dispatch.lean ====
section
/-! DEFINITION. `execute(instruction)` (41_fsm_cycle.md R93): one arm per constructor of Instr. -/

namespace Sys2Proof.Machine

def exec (i : Instr) (s : State) : Host.Outcome State Fault Refusal :=
  match i with
  | .nop => Sys2Proof.Machine.execNop s
  | .load a => Sys2Proof.Machine.execLoad a s
  | .store a => Sys2Proof.Machine.execStore a s
  | .add a => Sys2Proof.Machine.execAdd a s
  | .sub a => Sys2Proof.Machine.execSub a s
  | .ldi v => Sys2Proof.Machine.execLdi v s
  | .undef6 => Sys2Proof.Machine.execUndef6 s
  | .undef7 => Sys2Proof.Machine.execUndef7 s
  | .undef8 => Sys2Proof.Machine.execUndef8 s
  | .undef9 => Sys2Proof.Machine.execUndef9 s
  | .undefA => Sys2Proof.Machine.execUndefA s
  | .undefB => Sys2Proof.Machine.execUndefB s
  | .undefC => Sys2Proof.Machine.execUndefC s
  | .undefD => Sys2Proof.Machine.execUndefD s
  | .undefE => Sys2Proof.Machine.execUndefE s
  | .halt => Sys2Proof.Machine.execHalt s

end Sys2Proof.Machine
end

