-- ==== Sys2Proof/Machine/Cycle.lean ====
section
/-! DEFINITION. `cycle()`, one atomic step (41_fsm_cycle.md R94, R95). -/

namespace Sys2Proof.Machine

/-- `cycle()` (R94): nothing changes while Halted, which has a step to itself (R97; DESIGN
CHOICE, log 2); otherwise fetch, decode and execute, in that order. -/
def cycle (s : State) : Result :=
  match s.run with
  | .halted => .next s
  | .running =>
    let fetched := fetchDecode s
    exec fetched.1 fetched.2

end Sys2Proof.Machine
end

