-- ==== Sys2Proof/Machine/Step.lean ====
section
/-! DEFINITION. The step of the machine is one `cycle()` (41_fsm_cycle.md R95). -/

namespace Sys2Proof.Machine

/-- One step: one `cycle()`. -/
def step (s : State) : Host.Outcome State Fault Refusal := cycle s

/-- The state with a table word placed where the next step fetches it (DESIGN CHOICE, log 5). -/
def State.withFetchWord (s : State) (nbits w : Nat) : State := s.placeWord nbits w

end Sys2Proof.Machine
end

