-- ==== Sys2Proof/Machine/Accesses.lean ====
section
/-! DEFINITION. The memory accesses of one cycle, in order (41_fsm_cycle.md R101, 20_memory.md R42). The list is read off
the state; it is no state of the machine. -/

namespace Sys2Proof.Machine

/-- One access to one cell. -/
inductive Access where
  | fetch (cell : Nibble)
  | read (cell : Nibble)
  | write (cell : Nibble)
deriving DecidableEq, Repr

/-- The data access of an instruction (R101). -/
def dataAccess : Instr → List Access
  | .nop => []
  | .load a => [.read a]
  | .store a => [.write a]
  | .add a => [.read a]
  | .sub a => [.read a]
  | .ldi _ => []
  | .undef6 => []
  | .undef7 => []
  | .undef8 => []
  | .undef9 => []
  | .undefA => []
  | .undefB => []
  | .undefC => []
  | .undefD => []
  | .undefE => []
  | .halt => []

/-- The fetches of an instruction that starts at a cell (R101): one for each of its cells. -/
def fetchAccesses (start : Nibble) (i : Instr) : List Access :=
  (List.range (encode i).length).map fun k => .fetch (mask4 (start.toNat + k))

/-- All accesses of the next cycle, in order: none while Halted. -/
def State.accesses (s : State) : List Access :=
  match s.run with
  | .halted => []
  | .running =>
    let i := (fetchDecode s).1
    fetchAccesses s.pc i ++ dataAccess i

end Sys2Proof.Machine
end

