-- ==== Sys2Proof/Machine/Assembler.lean ====
section
/-! DEFINITION. The assembler notation of 30_encoding.md R59 and its operand check, R60. It touches no machine state: it
gives the cells that a host loads. -/

namespace Sys2Proof.Machine

/-- The cells of a source line (R59), before the check of its operand. -/
def lineCells : AsmLine → List Nibble
  | .nop => encode .nop
  | .load a => encode (.load (mask4 a))
  | .store a => encode (.store (mask4 a))
  | .add a => encode (.add (mask4 a))
  | .sub a => encode (.sub (mask4 a))
  | .ldi i => encode (.ldi (mask4 i))
  | .halt => encode .halt
  | .cell v => [mask4 v]

/-- Assembles one line: rejects an operand outside 0 to 15 (R60). -/
def assembleLine (l : AsmLine) : Option (List Nibble) := if l.wf then some (lineCells l) else none

/-- Assembles lines one after another; one rejected line rejects them all. -/
def assemble : List AsmLine → Option (List Nibble)
  | [] => some []
  | l :: ls =>
    match assembleLine l, assemble ls with
    | some cells, some rest => some (cells ++ rest)
    | _, _ => none

/-! The text of a line: a word, then its number after one or more spaces; `@` marks an address (R59; DESIGN CHOICE, log 13). -/

/-- The value of a decimal or hexadecimal digit. -/
def digitValue (base : Nat) (ch : Char) : Option Nat :=
  let n := ch.toNat
  let v := if 48 ≤ n ∧ n ≤ 57 then n - 48 else if 65 ≤ n ∧ n ≤ 70 then n - 55 else if 97 ≤ n ∧ n ≤ 102 then n - 87 else base
  if v < base then some v else none

/-- The number that digits spell after the digits already read. -/
def digitsFrom (base acc : Nat) : List Char → Option Nat
  | [] => some acc
  | ch :: chs =>
    match digitValue base ch with
    | some v => digitsFrom base (base * acc + v) chs
    | none => none

/-- A number in decimal, or in hexadecimal after `0x` (R59). -/
def parseNumber : List Char → Option Nat
  | [] => none
  | ['0', 'x'] => none
  | '0' :: 'x' :: digits => digitsFrom 16 0 digits
  | digits => digitsFrom 10 0 digits

/-- An address operand: `@` and a number (R59). -/
def parseAddress : List Char → Option Nat
  | '@' :: number => parseNumber number
  | _ => none

/-- The words of a line, which spaces part. -/
def wordsOf (line : List Char) : List (List Char) := (line.splitOn ' ').filter (· ≠ [])

/-- Reads the words of one source line (R59). The undefined opcodes have no word (R60). -/
def parseWords : List (List Char) → Option AsmLine
  | [['N', 'O', 'P']] => some .nop
  | [['H', 'A', 'L', 'T']] => some .halt
  | [['L', 'O', 'A', 'D'], a] => (parseAddress a).map .load
  | [['S', 'T', 'O', 'R', 'E'], a] => (parseAddress a).map .store
  | [['A', 'D', 'D'], a] => (parseAddress a).map .add
  | [['S', 'U', 'B'], a] => (parseAddress a).map .sub
  | [['L', 'D', 'I'], i] => (parseNumber i).map .ldi
  | [['.', 'c', 'e', 'l', 'l'], v] => (parseNumber v).map .cell
  | _ => none

/-- Reads one source line. -/
def parseLine (line : List Char) : Option AsmLine := parseWords (wordsOf line)

end Sys2Proof.Machine
end

