-- ==== Sys2Proof/Machine/GateDepth.lean ====
section
/-! DEFINITION. The adders as gate netlists, whose values are those of `Alu.lean` and whose depths are the gate-level
counts of 70_reset_and_hazards.md R171. A depth is a count, with no time unit. -/

namespace Sys2Proof.Machine

/-- An input of a netlist. -/
inductive Wire where
  /-- Bit `i` of operand `a`. -/
  | a (i : Nat)
  /-- Bit `i` of operand `b`. -/
  | b (i : Nat)
  /-- The carry into a single full adder. -/
  | carryIn
  /-- A fixed bit. -/
  | const (v : Bool)
deriving DecidableEq, Repr

/-- A netlist with one output. -/
inductive Net where
  | wire (w : Wire)
  | gate (k : GateKind) (x y : Net)
deriving DecidableEq, Repr

/-- The value of a netlist for the values of its inputs. -/
def Net.eval (env : Wire → Bool) : Net → Bool
  | .wire w => env w
  | .gate k x y => evaluate k (x.eval env) (y.eval env)

/-- The longest path, in gates, from an input that `start` picks to the output; none where there is no path. -/
def Net.depthFrom (start : Wire → Bool) : Net → Option Nat
  | .wire w => if start w then some 0 else none
  | .gate _ x y =>
    match x.depthFrom start, y.depthFrom start with
    | none, none => none
    | some m, none => some (m + 1)
    | none, some n => some (n + 1)
    | some m, some n => some (max m n + 1)

/-- The two outputs of an adder netlist. -/
structure AdderNets where
  sum : Net
  carry : Net
deriving DecidableEq, Repr

/-- The netlist of R74. -/
def halfAdderNet (x y : Net) : AdderNets where
  sum := .gate .xor x y
  carry := .gate .and x y

/-- The netlist of R75. -/
def fullAdderNet (x y carryIn : Net) : AdderNets :=
  let r1 := halfAdderNet x y
  let r2 := halfAdderNet r1.sum carryIn
  { sum := r2.sum, carry := .gate .or r1.carry r2.carry }

/-- The netlist of the ripple chain (R79). -/
def rippleNet : List (Net × Net) → Net → List Net × Net
  | [], carryIn => ([], carryIn)
  | (x, y) :: stages, carryIn =>
    let f := fullAdderNet x y carryIn
    let rest := rippleNet stages f.carry
    (f.sum :: rest.1, rest.2)

/-- Bit `i` of operand `b` as the chain takes it: as it is for Add (R80), through an XOR gate for Subtract (R85). -/
def secondOperandNet (op : AluOp) (i : Nat) : Net :=
  match op with
  | .add => .wire (.b i)
  | .subtract => .gate .xor (.wire (.b i)) (.wire (.const true))

/-- The netlist of the unit for one operation: the four sum bits and the last carry. -/
def aluNet (op : AluOp) : List Net × Net :=
  rippleNet ((List.range 4).map fun i => (.wire (.a i), secondOperandNet op i)) (.wire (.const (subBit op)))

/-- The values of the netlist's inputs for two operands. -/
def wireValues (a b : Nibble) : Wire → Bool
  | .a i => a.getLsbD i
  | .b i => b.getLsbD i
  | .carryIn => false
  | .const v => v

/-- The operand bits, as the start of a path. -/
def Wire.isOperand : Wire → Bool
  | .a _ => true
  | .b _ => true
  | .carryIn => false
  | .const _ => false

end Sys2Proof.Machine
end

