-- ==== Sys2Proof/Machine/HostInterface.lean ====
section
/-! DEFINITION. What the host can do to one instance (60_exceptions.md R151). Every operation falls between two cycles
and is atomic (92 D13), so each is a function of the state beside `step`. -/

namespace Sys2Proof.Machine

/-- The power-on reset, or construction, of an instance: it replaces whatever was there (70_reset_and_hazards.md R160). -/
def State.powerOn (_ : State) : State := State.reset

/-- `load_program(bytes)` (20_memory.md R38): memory only. -/
def State.loadProgram (s : State) (bytes : List Nat) : State := { s with mem := s.mem.loadProgram bytes }

/-- `clear()` (R39): memory only. -/
def State.clearMemory (s : State) : State := { s with mem := s.mem.clear }

/-- The state a launch starts its cycles from: power-on reset, `load_program`, then the host's own writes (R164). -/
def launched (bytes : List Nat) (writes : List (Nat × Nat)) : State :=
  writes.foldl (fun s w => s.memWrite w.1 w.2) (State.reset.loadProgram bytes)

/-- How a bounded `run()` came to its end. -/
inductive RunEnd where
  /-- The run ended: the state is Halted (41_fsm_cycle.md R98). -/
  | halted (s : State)
  /-- The host's bound was reached first: the run did not end (60_exceptions.md R144). -/
  | outOfFuel (s : State)
deriving DecidableEq, Repr

/-- `run()` (41_fsm_cycle.md R96) under the host's bound on the number of cycles (92 D16; DESIGN CHOICE,
log 6). -/
def runBounded : Nat → State → Host.Outcome RunEnd Fault Refusal
  | 0, s =>
    match s.run with
    | .halted => .next (.halted s)
    | .running => .next (.outOfFuel s)
  | fuel + 1, s =>
    match s.run with
    | .halted => .next (.halted s)
    | .running =>
      match step s with
      | .next t => runBounded fuel t
      | .fault r => .fault r
      | .refused r => .refused r

/-- The one-bit values the host can read (10_state.md R23). -/
inductive BitName where
  | z
  | c
  | halted
deriving DecidableEq, Repr

/-- Reads a one-bit value (R23). -/
def State.readBit (s : State) : BitName → Bool
  | .z => s.z
  | .c => s.c
  | .halted => s.run == .halted

/-- The host's operations: the table of R151, with `run()` under the host's bound. -/
inductive HostOp where
  | powerOn
  | loadProgram (bytes : List Nat)
  | write (address value : Nat)
  | read (address : Nat)
  | clear
  | dump
  | readRegister (r : Reg)
  | readBit (b : BitName)
  | writeRegister (r : Reg) (value : Nat)
  | registerFileReset
  | cycle
  | run (fuel : Nat)
deriving DecidableEq, Repr

/-- What the host gets back (R151). -/
inductive HostReply where
  | nothing
  | nibble (v : Nibble)
  | bit (b : Bool)
  | nibbles (vs : List Nibble)
  /-- A bounded `run()` that reached its bound: `run()` itself has not returned (60_exceptions.md R144). -/
  | stillRunning
deriving DecidableEq, Repr

/-- One host operation: the state after it and the reply. -/
def hostOp (op : HostOp) (s : State) : Host.Outcome (State × HostReply) Fault Refusal :=
  match op with
  | .powerOn => .next (s.powerOn, .nothing)
  | .loadProgram bytes => .next (s.loadProgram bytes, .nothing)
  | .write address value => .next (s.memWrite address value, .nothing)
  | .read address => .next (s, .nibble (s.memRead address))
  | .clear => .next (s.clearMemory, .nothing)
  | .dump => .next (s, .nibbles s.mem.dump)
  | .readRegister r => .next (s, .nibble (s.readReg r))
  | .readBit b => .next (s, .bit (s.readBit b))
  | .writeRegister r value => .next (s.writeReg r value, .nothing)
  | .registerFileReset => .next (s.resetRegisterFile, .nothing)
  | .cycle =>
    match step s with
    | .next t => .next (t, .nothing)
    | .fault r => .fault r
    | .refused r => .refused r
  | .run fuel =>
    match runBounded fuel s with
    | .next (.halted t) => .next (t, .nothing)
    | .next (.outOfFuel t) => .next (t, .stillRunning)
    | .fault r => .fault r
    | .refused r => .refused r

end Sys2Proof.Machine
end

