-- ==== Sys2Proof/Machine/Instances.lean ====
section
/-! DEFINITION. Several processor instances side by side: "a product of independent single-instance models"
(60_exceptions.md R148, 20_memory.md R46). -/

namespace Sys2Proof.Machine

/-- The instances, each with a register file, memory bank and run state of its own. -/
abbrev Instances := List State

/-- One cycle of instance `k`. A number that names no instance changes nothing (DESIGN CHOICE, log 7). -/
def stepInstance (k : Nat) (ps : Instances) : Host.Outcome Instances Fault Refusal :=
  match ps[k]? with
  | none => .next ps
  | some s =>
    match step s with
    | .next t => .next (ps.set k t)
    | .fault r => .fault r
    | .refused r => .refused r

end Sys2Proof.Machine
end

