-- ==== Sys2Proof/Reference.lean ====
section
/-! DEFINITION. The same machine told a second time, by plain arithmetic: numbers modulo 16, a list of 16 cells and the
closed forms of 40_datapath_adders.md R83 in place of Nibbles, canonical memory and gates. It is what claims compare the
machine with; the machine does not use it. -/

namespace Sys2Proof

/-- The state of R10 in numbers. -/
structure Arith where
  ac : Nat
  pc : Nat
  ir : Nat
  z : Bool
  c : Bool
  halted : Bool
  cells : List Nat
deriving DecidableEq, Repr

/-- The cell at an address modulo 16 (R31). -/
def Arith.cell (m : Arith) (addr : Nat) : Nat := m.cells.getD (addr % 16) 0

/-- The state after the fetches of an instruction of `n` cells whose last cell holds `v` (R13, R14). -/
def Arith.fetched (m : Arith) (n v : Nat) : Arith := { m with pc := (m.pc + n) % 16, ir := v }

/-- One cycle: the opcode map of R54 with the effects of R110 to R132. -/
def Arith.cycle (m : Arith) : Arith :=
  if m.halted then m
  else
    let op := m.cell m.pc
    let a := m.cell (m.pc + 1)
    let v := m.cell a
    let one := m.fetched 1 op
    let two := m.fetched 2 a
    match op with
    | 1 => { two with ac := v, z := v == 0, c := false }
    | 2 => { two with cells := m.cells.set a m.ac }
    | 3 => { two with ac := (m.ac + v) % 16, z := (m.ac + v) % 16 == 0, c := decide (16 ≤ m.ac + v) }
    | 4 => { two with ac := (m.ac + 16 - v) % 16, z := m.ac == v, c := decide (v ≤ m.ac) }
    | 5 => { two with ac := a, z := a == 0, c := false }
    | 15 => { one with halted := true }
    | _ => one

/-- A machine state in numbers. -/
def Machine.State.arith (s : Machine.State) : Arith where
  ac := s.ac.toNat
  pc := s.pc.toNat
  ir := s.ir.toNat
  z := s.z
  c := s.c
  halted := s.run == .halted
  cells := s.mem.dump.map BitVec.toNat

end Sys2Proof
end

