-- ==== Sys2Proof/Safety.lean ====
section
/-! DEFINITION. The terms in which claims about runs are stated. No state is unsafe on this hardware: a run cannot fault
(60_exceptions.md R140), and a run that never halts is the one abnormal outcome (41_fsm_cycle.md R99). -/

namespace Sys2Proof.Machine

/-- What every cycle keeps. The memory is canonical, so each cell is one of the 16 and holds a Nibble (R2, R30); and a
Halted processor has PC at the cell just after a HALT opcode and IR = 0xF (R98). -/
def State.inv (s : State) : Prop :=
  s.mem.wf ∧ (s.run = .halted → s.ir = 0xF ∧ s.memRead (s.pc.toNat + 15) = 0xF)

/-- Two states that may differ in Z and C and in nothing else. -/
def sameButFlags (s s' : State) : Prop := s' = { s with z := s'.z, c := s'.c }

/-- Two states that may differ in memory and in nothing else. -/
def sameButMemory (s s' : State) : Prop := s' = { s with mem := s'.mem }

/-- The state after `n` fetches, `n` at least 1, the last of which returned `v` (R12, R14). -/
def State.afterFetches (s : State) (n : Nat) (v : Nibble) : State :=
  { s with pc := mask4 (s.pc.toNat + n), ir := v }

/-- `k` cycles, one after another. -/
def cycles : Nat → State → Result
  | 0, s => .next s
  | k + 1, s =>
    match step s with
    | .next t => cycles k t
    | .fault r => .fault r
    | .refused r => .refused r

/-- `k` cycles from `s` end in `t`. -/
def runsTo (k : Nat) (s t : State) : Prop := cycles k s = .next t

end Sys2Proof.Machine
end

