-- ==== Sys2Proof/Certificates/Slice0/Obligations.lean ====
section
/-! DEFINITION. The statements for the provers. A clause that rests on a rule the spec itself marks `[derived: ...]` or
`[decision: ...]` stands in a statement of basis 'derived'. -/

open Sys2Proof Sys2Proof.Machine

/-! Gates, adders and the arithmetic unit: 40_datapath_adders.md. -/

/-- R70, R71, R72: what each gate gives for every pair of bits. -/
def Obligations.GatesFollowTheirTruthTables : Prop :=
  (evaluate .and false false = false ∧ evaluate .and false true = false ∧
    evaluate .and true false = false ∧ evaluate .and true true = true) ∧
  (evaluate .or false false = false ∧ evaluate .or false true = true ∧
    evaluate .or true false = true ∧ evaluate .or true true = true) ∧
  (evaluate .xor false false = false ∧ evaluate .xor false true = true ∧
    evaluate .xor true false = true ∧ evaluate .xor true true = false)

/-- R74: the half adder is an XOR gate and an AND gate, with the listed truth table. -/
def Obligations.HalfAdderComputesSumAndCarry : Prop :=
  (∀ a b : Bool, (halfAdder a b).sum = evaluate .xor a b ∧ (halfAdder a b).carry = evaluate .and a b) ∧
  halfAdder false false = ⟨false, false⟩ ∧ halfAdder false true = ⟨true, false⟩ ∧
  halfAdder true false = ⟨true, false⟩ ∧ halfAdder true true = ⟨false, true⟩

/-- R75 and R76: the full adder's structure, its sum and majority, its integer law, and (the sentence of R76 that the
spec marks as derived) that the two half-adder carries are never both 1. -/
def Obligations.FullAdderAddsThreeBits : Prop :=
  ∀ a b c : Bool,
    let r1 := halfAdder a b
    let r2 := halfAdder r1.sum c
    fullAdder a b c = ⟨r2.sum, evaluate .or r1.carry r2.carry⟩ ∧
    (fullAdder a b c).sum = ((a ^^ b) ^^ c) ∧
    (fullAdder a b c).carry = ((a && b) || (a && c) || (b && c)) ∧
    a.toNat + b.toNat + c.toNat = 2 * (fullAdder a b c).carry.toNat + (fullAdder a b c).sum.toNat ∧
    (r1.carry && r2.carry) = false

/-- The ripple chain of R79 adds at every width: the sum bits and the last carry spell the sum of the two operands and
the carry in. -/
def Obligations.RippleChainAddsAtEveryWidth : Prop :=
  ∀ (stages : List (Bool × Bool)) (carryIn : Bool),
    (rippleChain stages carryIn).1.length = stages.length ∧
    bitsToNat (rippleChain stages carryIn).1 + 2 ^ stages.length * (rippleChain stages carryIn).2.toNat =
      bitsToNat (stages.map Prod.fst) + bitsToNat (stages.map Prod.snd) + carryIn.toNat

/-- R78 and R79: the unit is four full adders in a chain, bit 0 first, over masked operands; Subtract takes the inverted
second operand and carry 1, Add the operand and carry 0. -/
def Obligations.AluIsFourFullAddersInAChain : Prop :=
  ∀ (aIn bIn : Nat) (op : AluOp),
    let a : Nibble := mask4 aIn
    let b : Nibble := if op = .subtract then mask4 (15 - bIn % 16) else mask4 bIn
    let f0 := fullAdder (a.getLsbD 0) (b.getLsbD 0) (decide (op = .subtract))
    let f1 := fullAdder (a.getLsbD 1) (b.getLsbD 1) f0.carry
    let f2 := fullAdder (a.getLsbD 2) (b.getLsbD 2) f1.carry
    let f3 := fullAdder (a.getLsbD 3) (b.getLsbD 3) f2.carry
    (alu aIn bIn op).result.toNat = f0.sum.toNat + 2 * f1.sum.toNat + 4 * f2.sum.toNat + 8 * f3.sum.toNat ∧
    (alu aIn bIn op).carry = f3.carry ∧
    (alu aIn bIn op).zero = decide ((alu aIn bIn op).result = 0)

/-- R80, R81, R82: one chain serves both operations. Add feeds it `b` with carry 0, Subtract `~b` with carry 1, which is
`a + (~b & 0xF) + 1`; the carry is the chain's last, for Subtract 1 exactly when `a ≥ b` (no borrow); zero is the test of
the result alone. -/
def Obligations.AddAndSubtractUseOneChain : Prop :=
  ∀ a b : Nibble,
    let addChain := rippleChain ((bitsOf a).zip (bitsOf b)) false
    let subChain := rippleChain ((bitsOf a).zip (bitsOf (~~~b))) true
    let sum := alu a.toNat b.toNat .add
    let diff := alu a.toNat b.toNat .subtract
    sum.result.toNat = bitsToNat addChain.1 ∧ sum.carry = addChain.2 ∧
    diff.result.toNat = bitsToNat subChain.1 ∧ diff.carry = subChain.2 ∧
    sum.result = a + b ∧ diff.result = a + ~~~b + 1 ∧ (diff.carry = true ↔ b.toNat ≤ a.toNat) ∧
    ∀ op, ((alu a.toNat b.toNat op).zero = true ↔ (alu a.toNat b.toNat op).result = 0)

/-- The closed forms of 40_datapath_adders.md §4, "For every `a` and `b` from 0 to 15, taken after masking", for operands
of any width (R77). -/
def Obligations.AluMeetsItsClosedForms : Prop :=
  ∀ aIn bIn : Nat,
    let a := aIn % 16
    let b := bIn % 16
    let sum := alu aIn bIn .add
    let diff := alu aIn bIn .subtract
    sum.result.toNat = (a + b) % 16 ∧ sum.carry = decide (16 ≤ a + b) ∧ sum.zero = decide ((a + b) % 16 = 0) ∧
    16 * sum.carry.toNat + sum.result.toNat = a + b ∧
    (diff.result.toNat : Int) = ((a : Int) - b) % 16 ∧ diff.carry = decide (b ≤ a) ∧ diff.zero = decide (a = b) ∧
    (a : Int) - b = (diff.result.toNat : Int) - 16 * (1 - (diff.carry.toNat : Int))

/-- The netlist whose depths are counted is the machine's unit: every chain of full-adder netlists evaluates to the
ripple chain of its inputs' values, and the unit's netlist to the unit. -/
def Obligations.AdderNetlistsComputeTheAlu : Prop :=
  (∀ (env : Wire → Bool) (stages : List (Net × Net)) (carryIn : Net),
    ((rippleNet stages carryIn).1.map (Net.eval env), (rippleNet stages carryIn).2.eval env) =
      rippleChain (stages.map fun p => (p.1.eval env, p.2.eval env)) (carryIn.eval env)) ∧
  ∀ (a b : Nibble) (op : AluOp),
    mask4 (bitsToNat ((aluNet op).1.map (Net.eval (wireValues a b)))) = (alu a.toNat b.toNat op).result ∧
    (aluNet op).2.eval (wireValues a b) = (alu a.toNat b.toNat op).carry

/-- The gate-level depths of the table in 70_reset_and_hazards.md §4 ("for information only"), each the longest path in
the netlists. -/
def Obligations.GateDepthsAreTheListedCounts : Prop :=
  let f := fullAdderNet (.wire (.a 0)) (.wire (.b 0)) (.wire .carryIn)
  f.carry.depthFrom (· == .carryIn) = some 2 ∧
  f.carry.depthFrom Wire.isOperand = some 3 ∧
  f.sum.depthFrom (· == .carryIn) = some 1 ∧
  f.sum.depthFrom Wire.isOperand = some 2 ∧
  (aluNet .add).2.depthFrom Wire.isOperand = some 9 ∧
  (aluNet .add).1.map (Net.depthFrom Wire.isOperand) = [some 2, some 4, some 6, some 8] ∧
  (aluNet .subtract).2.depthFrom Wire.isOperand = some 10 ∧
  (aluNet .subtract).1.map (Net.depthFrom Wire.isOperand) = [some 3, some 5, some 7, some 9]

/-! Memory: 20_memory.md. -/

/-- R31, R32, R33: an address and a value count modulo 16; after a write the cell reads the value and every other cell
what it held; nothing but memory changes; a read changes nothing. -/
def Obligations.WriteThenReadCountsModulo16 : Prop :=
  ∀ (s : State) (x v y : Nat),
    (∃ t, hostOp (.write x v) s = .next (t, .nothing) ∧ hostOp (.write (x % 16) (v % 16)) s = .next (t, .nothing) ∧
      sameButMemory s t ∧ t.memRead y = if y % 16 = x % 16 then mask4 v else s.memRead y) ∧
    hostOp (.read y) s = .next (s, .nibble (s.memRead y)) ∧
    s.memRead y = s.memRead (y % 16)

/-- Canonical memories that read alike in all 16 cells are the same data (the model's own form of memory, log 1). -/
def Obligations.CanonicalMemoriesThatReadAlikeAreEqual : Prop :=
  ∀ m n : Memory, m.wf → n.wf → (∀ k, k < 16 → m.read k = n.read k) → m = n

/-- `load_program`, 20_memory.md §3: the first `min(len, 16)` cells take the values modulo 16, in order, every other
cell and everything else stays (the last two are the spec's decision D4). -/
def Obligations.LoadProgramFillsTheFirstCells : Prop :=
  ∀ (s : State) (bytes : List Nat),
    ∃ t, hostOp (.loadProgram bytes) s = .next (t, .nothing) ∧ sameButMemory s t ∧
      ∀ k, k < 16 → t.memRead k = if k < bytes.length then mask4 (bytes.getD k 0) else s.memRead k

/-- R39: `clear()` sets all 16 cells to 0 and changes no register and not the run state. -/
def Obligations.ClearZeroesEveryCell : Prop :=
  ∀ s : State, ∃ t, hostOp .clear s = .next (t, .nothing) ∧ sameButMemory s t ∧ ∀ x, t.memRead x = 0

/-- `dump()`, 20_memory.md §3: the 16 values in ascending address order (the spec's decision D12), with no change. -/
def Obligations.DumpListsTheCellsInAddressOrder : Prop :=
  ∀ s : State, ∃ vs, hostOp .dump s = .next (s, .nibbles vs) ∧ vs.length = 16 ∧
    ∀ k, k < 16 → vs[k]? = some (s.memRead k)

/-! Encoding: 30_encoding.md. -/

/-- What each of the 16 opcode values decodes to, and which take the next cell as operand: the opcode map of R54, with
R55. Where the map says NoOp for 0x6 to 0xE, the model's decoder gives a constructor for each, all with NOP's meaning:
that is the model's choice (DEDUCED, log 15). -/
def Obligations.OpcodeMapDecodesEveryOpcode : Prop :=
  ∀ (a : Nibble) (rest : List Nibble),
    decodeCells (0x0#4 :: rest) = .ok (.nop, rest) ∧
    decodeCells (0x1#4 :: a :: rest) = .ok (.load a, rest) ∧
    decodeCells (0x2#4 :: a :: rest) = .ok (.store a, rest) ∧
    decodeCells (0x3#4 :: a :: rest) = .ok (.add a, rest) ∧
    decodeCells (0x4#4 :: a :: rest) = .ok (.sub a, rest) ∧
    decodeCells (0x5#4 :: a :: rest) = .ok (.ldi a, rest) ∧
    decodeCells (0x6#4 :: rest) = .ok (.undef6, rest) ∧
    decodeCells (0x7#4 :: rest) = .ok (.undef7, rest) ∧
    decodeCells (0x8#4 :: rest) = .ok (.undef8, rest) ∧
    decodeCells (0x9#4 :: rest) = .ok (.undef9, rest) ∧
    decodeCells (0xA#4 :: rest) = .ok (.undefA, rest) ∧
    decodeCells (0xB#4 :: rest) = .ok (.undefB, rest) ∧
    decodeCells (0xC#4 :: rest) = .ok (.undefC, rest) ∧
    decodeCells (0xD#4 :: rest) = .ok (.undefD, rest) ∧
    decodeCells (0xE#4 :: rest) = .ok (.undefE, rest) ∧
    decodeCells (0xF#4 :: rest) = .ok (.halt, rest)

/-- Decoding the cells of any instruction, with any operand and whatever follows, gives it back and leaves what
follows. For the undefined opcodes it rests on the model's constructor for each (DEDUCED, log 15). -/
def Obligations.DecodeOfEncodeIsTheInstruction : Prop :=
  ∀ (i : Instr) (rest : List Nibble), decodeCells (encode i ++ rest) = .ok (i, rest)

/-- The other direction: the cells that decode to an instruction are the cells it encodes to, so no cell is read twice
and none is dropped. It is no rule of the spec, whose one NoOp has ten opcodes: it holds because the model gives each
undefined opcode a constructor of its own (DEDUCED, log 15). -/
def Obligations.EncodeOfDecodeIsTheCells : Prop :=
  ∀ (cells : List Nibble) (i : Instr) (rest : List Nibble),
    decodeCells cells = .ok (i, rest) → cells = encode i ++ rest

/-- Every cell value spells an instruction that runs; the opcode alone sets the length, two cells for 1 to 5 with every
operand legal; 6 to 14 run as NOP does (R52, R56). That the instruction of an undefined opcode has that opcode is the
model's choice of a constructor for each (DEDUCED, log 15). -/
def Obligations.EveryCellValueIsAnInstruction : Prop :=
  ∀ (op a : Nibble) (rest : List Nibble), ∃ i,
    i.opcode = op ∧
    decodeCells (op :: a :: rest) =
      .ok (i, if 1 ≤ op.toNat ∧ op.toNat ≤ 5 then rest else a :: rest) ∧
    i.operand = (if 1 ≤ op.toNat ∧ op.toNat ≤ 5 then some a else none) ∧
    (∀ s, ∃ t, exec i s = .next t) ∧
    (6 ≤ op.toNat ∧ op.toNat ≤ 14 → ∀ s, exec i s = exec .nop s)

/-- The assembler of 30_encoding.md §3 (the spec's decision D10): an operand outside 0 to 15 is rejected; every other
line gives the listed cells, which, but for `.cell`, decode to the line's instruction. -/
def Obligations.AssemblerEncodesOrRejects : Prop :=
  (∀ (l : AsmLine) (v : Nat), l.operand = some v → 15 < v → assembleLine l = none) ∧
  (assembleLine .nop = some [0x0#4] ∧ assembleLine .halt = some [0xF#4]) ∧
  (∀ v : Nat, v ≤ 15 →
    assembleLine (.load v) = some [0x1#4, mask4 v] ∧ assembleLine (.store v) = some [0x2#4, mask4 v] ∧
    assembleLine (.add v) = some [0x3#4, mask4 v] ∧ assembleLine (.sub v) = some [0x4#4, mask4 v] ∧
    assembleLine (.ldi v) = some [0x5#4, mask4 v] ∧ assembleLine (.cell v) = some [mask4 v]) ∧
  (∀ (l : AsmLine) (cells : List Nibble), assembleLine l = some cells → (∀ v, l ≠ .cell v) →
    ∃ i, ∀ rest, decodeCells (cells ++ rest) = .ok (i, rest)) ∧
  ∀ ls ms : List AsmLine, assemble (ls ++ ms) =
    (assemble ls).bind fun cells => (assemble ms).map fun more => cells ++ more

/-! The cycle: 41_fsm_cycle.md, and what it does to PC and IR: 10_state.md. -/

/-- A step of a Running processor decodes the cells at PC and after it, moves PC past the instruction's cells, leaves the
last of them in IR, and executes the instruction there (R94 with R91, R92). -/
def Obligations.StepRunsTheDecodedInstruction : Prop :=
  ∀ (s : State) (i : Instr) (rest : List Nibble), s.run = .running →
    decodeCells [s.memRead s.pc.toNat, s.memRead (s.pc.toNat + 1)] = .ok (i, rest) →
    step s = exec i
      { s with pc := mask4 (s.pc.toNat + (encode i).length), ir := (encode i).getLastD 0 }

/-- R91: `fetch()` returns the cell at PC, writes it into IR and increments PC modulo 16. -/
def Obligations.FetchReadsTheCellAtPc : Prop :=
  ∀ s : State,
    (fetch s).1 = s.memRead s.pc.toNat ∧
    (fetch s).2.ir = s.memRead s.pc.toNat ∧
    (fetch s).2.pc.toNat = (s.pc.toNat + 1) % 16 ∧
    (fetch s).2 = { s with pc := (fetch s).2.pc, ir := (fetch s).2.ir }

/-- R14 and R167: every fetch writes IR, no instruction reads or writes it; after a one-cell instruction it holds the
opcode, after a two-cell one the operand. -/
def Obligations.IrHoldsTheLastCellFetched : Prop :=
  (∀ s : State, (fetch s).2.ir = (fetch s).1) ∧
  (∀ (i : Instr) (s : State) (v : Nibble), ∃ t, exec i s = .next t ∧ t.ir = s.ir ∧
    exec i { s with ir := v } = .next { t with ir := v }) ∧
  ∀ s : State, s.run = .running → ∃ t, step s = .next t ∧
    t.ir = if 1 ≤ (s.memRead s.pc.toNat).toNat ∧ (s.memRead s.pc.toNat).toNat ≤ 5
      then s.memRead (s.pc.toNat + 1) else s.memRead s.pc.toNat

/-- R12: PC holds the address of the next cell to fetch; only `fetch()` writes it, by one modulo 16 (15 goes to 0); no
instruction writes PC or reads it as data. -/
def Obligations.OnlyFetchMovesPc : Prop :=
  (∀ s : State, (fetch s).1 = s.memRead s.pc.toNat ∧ (fetch s).2.pc.toNat = (s.pc.toNat + 1) % 16 ∧
    (s.pc = 15 → (fetch s).2.pc = 0)) ∧
  ∀ (i : Instr) (s : State) (p : Nibble), ∃ t, exec i s = .next t ∧ t.pc = s.pc ∧
    exec i { s with pc := p } = .next { t with pc := p }

/-- PC over one cycle, as 10_state.md §2 derives it: one cell on, or two for opcodes 1 to 5, modulo 16; and PC stays
while Halted. -/
def Obligations.CycleAdvancesPcByItsCells : Prop :=
  ∀ s : State, ∃ t, step s = .next t ∧
    t.pc.toNat =
      if s.run = .halted then s.pc.toNat
      else if 1 ≤ (s.memRead s.pc.toNat).toNat ∧ (s.memRead s.pc.toNat).toNat ≤ 5 then (s.pc.toNat + 2) % 16
      else (s.pc.toNat + 1) % 16

/-! The instructions: 42_data_transfer.md, 43_arithmetic.md, 44_control.md. Each says what the execute phase answers in
every state, and what the cycle answers when the opcode is at PC. -/

/-- R110: LOAD. The last clause is "LOAD is the only way to clear C without writing a constant into AC": only LOAD and
LDI leave C clear from every state. -/
def Obligations.LoadReadsTheAddressedCell : Prop :=
  (∀ (a : Nibble) (s : State), exec (.load a) s =
    .next { s with ac := s.memRead a.toNat, z := decide (s.memRead a.toNat = 0), c := false }) ∧
  (∀ s : State, s.run = .running → s.memRead s.pc.toNat = 1 →
    let a := s.memRead (s.pc.toNat + 1)
    let v := s.memRead a.toNat
    step s = .next { s with ac := v, z := decide (v = 0), c := false, pc := mask4 (s.pc.toNat + 2), ir := a } ∧
    (a = s.pc → v = 1) ∧ (a = s.pc + 1 → v = a)) ∧
  ∀ i : Instr, (∀ s t : State, exec i s = .next t → t.c = false) ↔ (∃ a, i = .load a) ∨ ∃ v, i = .ldi v

/-- R111: STORE. The address stored to is the operand; the flags stay; the store does not change the instruction that
makes it, and it decides the next opcode when it stores into the next cell. -/
def Obligations.StoreWritesTheAccumulator : Prop :=
  (∀ (a : Nibble) (s : State), ∃ t, exec (.store a) s = .next t ∧ sameButMemory s t ∧
    ∀ x, t.memRead x = if x % 16 = (operandAddress a) % 16 then s.ac else s.memRead x) ∧
  ∀ s : State, s.run = .running → s.memRead s.pc.toNat = 2 →
    let a := s.memRead (s.pc.toNat + 1)
    ∃ t, step s = .next t ∧ sameButMemory { s with pc := mask4 (s.pc.toNat + 2), ir := a } t ∧
      (∀ x, t.memRead x = if x % 16 = (operandAddress a) % 16 then s.ac else s.memRead x) ∧
      (a = s.pc + 2 → (fetch t).1 = s.ac)

/-- R112: LDI. No data cell is read; an operand byte above 15 was reduced when it was loaded; the operand of an LDI in
cell 15 is cell 0. -/
def Obligations.LdiLoadsItsOperand : Prop :=
  (∀ (v : Nibble) (s : State), exec (.ldi v) s = .next { s with ac := v, z := decide (v = 0), c := false }) ∧
  (∀ s : State, s.run = .running → s.memRead s.pc.toNat = 5 →
    let v := s.memRead (s.pc.toNat + 1)
    step s = .next { s with ac := v, z := decide (v = 0), c := false, pc := mask4 (s.pc.toNat + 2), ir := v } ∧
    (s.pc = 15 → v = s.memRead 0) ∧
    ∀ byte : Nat, ∃ t, step (s.memWrite (s.pc.toNat + 1) byte) = .next t ∧ t.ac.toNat = byte % 16)

/-- R120: ADD through the arithmetic unit, in numbers: the sum modulo 16, C when it is 16 or more, Z when the result is
0. The incoming flags are ignored. -/
def Obligations.AddWritesSumAndFlags : Prop :=
  (∀ (a : Nibble) (s : State), ∃ t, exec (.add a) s = .next t ∧
    t = { s with ac := t.ac, z := t.z, c := t.c } ∧
    t.ac = (alu s.ac.toNat (s.memRead a.toNat).toNat .add).result ∧
    t.ac.toNat = (s.ac.toNat + (s.memRead a.toNat).toNat) % 16 ∧
    t.c = decide (16 ≤ s.ac.toNat + (s.memRead a.toNat).toNat) ∧
    t.z = decide (t.ac = 0) ∧
    ∀ z c, exec (.add a) { s with z := z, c := c } = exec (.add a) s) ∧
  ∀ s : State, s.run = .running → s.memRead s.pc.toNat = 3 →
    let a := s.memRead (s.pc.toNat + 1)
    let m := s.memRead a.toNat
    (a = s.pc → m = 3) ∧ (a = s.pc + 1 → m = a) ∧
    ∃ t, step s = .next t ∧
      t = { s with ac := t.ac, z := t.z, c := t.c, pc := mask4 (s.pc.toNat + 2), ir := a } ∧
      t.ac.toNat = (s.ac.toNat + m.toNat) % 16 ∧ t.c = decide (16 ≤ s.ac.toNat + m.toNat) ∧ t.z = decide (t.ac = 0)

/-- R121: SUB through the same chain, in numbers: the difference modulo 16, C when there was no borrow, Z when the
operands were equal. The incoming flags are ignored. -/
def Obligations.SubWritesDifferenceAndFlags : Prop :=
  (∀ (a : Nibble) (s : State), ∃ t, exec (.sub a) s = .next t ∧
    t = { s with ac := t.ac, z := t.z, c := t.c } ∧
    t.ac = (alu s.ac.toNat (s.memRead a.toNat).toNat .subtract).result ∧
    (t.ac.toNat : Int) = ((s.ac.toNat : Int) - (s.memRead a.toNat).toNat) % 16 ∧
    t.c = decide ((s.memRead a.toNat).toNat ≤ s.ac.toNat) ∧
    t.z = decide (t.ac = 0) ∧ t.z = decide (s.ac = s.memRead a.toNat) ∧
    ∀ z c, exec (.sub a) { s with z := z, c := c } = exec (.sub a) s) ∧
  ∀ s : State, s.run = .running → s.memRead s.pc.toNat = 4 →
    let a := s.memRead (s.pc.toNat + 1)
    let m := s.memRead a.toNat
    (a = s.pc → m = 4) ∧
    ∃ t, step s = .next t ∧
      t = { s with ac := t.ac, z := t.z, c := t.c, pc := mask4 (s.pc.toNat + 2), ir := a } ∧
      (t.ac.toNat : Int) = ((s.ac.toNat : Int) - m.toNat) % 16 ∧ t.c = decide (m.toNat ≤ s.ac.toNat) ∧
      t.z = decide (s.ac = m)

/-- R130: NOP does nothing beyond the fetch, and memory that was never loaded executes as NOPs. -/
def Obligations.NopOnlyFetches : Prop :=
  (∀ s : State, exec .nop s = .next s) ∧
  ∀ s : State, s.run = .running → (s.memRead s.pc.toNat = 0 ∨ s.mem = State.reset.mem) →
    step s = .next { s with ir := 0, pc := mask4 (s.pc.toNat + 1) }

/-- R131: each undefined opcode behaves exactly as NOP: no operand, no flag, no trap. Its neighbour is the next opcode
fetched. -/
def Obligations.UndefinedOpcodesActAsNop : Prop :=
  (∀ s : State, exec .undef6 s = .next s ∧ exec .undef7 s = .next s ∧ exec .undef8 s = .next s ∧
    exec .undef9 s = .next s ∧ exec .undefA s = .next s ∧ exec .undefB s = .next s ∧
    exec .undefC s = .next s ∧ exec .undefD s = .next s ∧ exec .undefE s = .next s) ∧
  ∀ s : State, s.run = .running → 6 ≤ (s.memRead s.pc.toNat).toNat → (s.memRead s.pc.toNat).toNat ≤ 14 →
    ∃ t, step s = .next t ∧ t = { s with ir := s.memRead s.pc.toNat, pc := mask4 (s.pc.toNat + 1) } ∧
      (fetch t).1 = s.memRead (s.pc.toNat + 1)

/-- HALT (R132) moves the processor to Halted and keeps its PC increment; then a cycle changes nothing and `run()`
returns; it is the only way in, and only the processor reset leads out. `run()` is the model's run under the host's
bound (DESIGN CHOICE, log 6), and that no other host operation leaves Halted is the spec's decision D6 (DEDUCED,
log 9). -/
def Obligations.HaltStopsUntilReset : Prop :=
  (∀ s : State, exec .halt s = .next { s with run := .halted }) ∧
  (∀ s : State, s.run = .running → s.memRead s.pc.toNat = 15 → ∃ t, step s = .next t ∧
    t = { s with run := .halted, ir := 15, pc := mask4 (s.pc.toNat + 1) } ∧
    step t = .next t ∧ ∀ fuel, runBounded fuel t = .next (.halted t)) ∧
  (∀ (i : Instr) (s : State), ∃ t, exec i s = .next t ∧ t.run = if i = .halt then .halted else s.run) ∧
  ∀ (op : HostOp) (s : State), s.run = .halted → op ≠ .powerOn →
    ∃ t r, hostOp op s = .next (t, r) ∧ t.run = .halted

/-- "Once Halted, the processor stays Halted" (41_fsm_cycle.md, marked derived there): any number of cycles changes
nothing. That a Halted state has a step to itself is the model's choice (log 2). -/
def Obligations.HaltedProcessorIsInert : Prop :=
  ∀ (k : Nat) (s : State), s.run = .halted → runsTo k s s

/-! Registers and flags over all instructions: 10_state.md. -/

/-- R11: LOAD, LDI, ADD and SUB write AC and nothing else does; STORE, ADD and SUB read it and nothing else does; the
host reads and writes it. -/
def Obligations.AccumulatorReadersAndWriters : Prop :=
  (∀ (i : Instr), (∃ s t : State, exec i s = .next t ∧ t.ac ≠ s.ac) ↔
    ∃ a, i = .load a ∨ i = .ldi a ∨ i = .add a ∨ i = .sub a) ∧
  (∀ (a v : Nibble) (s : State),
    exec (.load a) { s with ac := v } = exec (.load a) s ∧ exec (.ldi a) { s with ac := v } = exec (.ldi a) s) ∧
  (∀ (i : Instr), i ∈ [.nop, .undef6, .undef7, .undef8, .undef9, .undefA, .undefB, .undefC, .undefD, .undefE, .halt] →
    ∀ (v : Nibble) (s : State), ∃ t, exec i s = .next t ∧ exec i { s with ac := v } = .next { t with ac := v }) ∧
  (∀ i : Instr, (∃ a, i = .store a ∨ i = .add a ∨ i = .sub a) →
    ∃ (s : State) (v : Nibble) (t t' : State), exec i s = .next t ∧ exec i { s with ac := v } = .next t' ∧
      { t with ac := 0 } ≠ { t' with ac := 0 }) ∧
  ∀ (s : State) (v : Nat), hostOp (.readRegister .ac) s = .next (s, .nibble s.ac) ∧
    hostOp (.writeRegister .ac v) s = .next ({ s with ac := mask4 v }, .nothing)

/-- R15 and R16: `update_flags`, and which instructions write the flags with what. -/
def Obligations.FlagsAreWrittenAsTabulated : Prop :=
  (∀ (s : State) (value : Nat) (carry : Bool),
    s.updateFlags value carry = { s with z := decide (value % 16 = 0), c := carry }) ∧
  (∀ (a : Nibble) (s : State), ∃ t, exec (.load a) s = .next t ∧
    t.z = decide (s.memRead a.toNat = 0) ∧ t.c = false) ∧
  (∀ (v : Nibble) (s : State), ∃ t, exec (.ldi v) s = .next t ∧ t.z = decide (v = 0) ∧ t.c = false) ∧
  (∀ (a : Nibble) (s : State), ∃ t, exec (.add a) s = .next t ∧
    t.z = decide ((alu s.ac.toNat (s.memRead a.toNat).toNat .add).result = 0) ∧
    t.c = (alu s.ac.toNat (s.memRead a.toNat).toNat .add).carry ∧
    (t.c = true ↔ 16 ≤ s.ac.toNat + (s.memRead a.toNat).toNat)) ∧
  (∀ (a : Nibble) (s : State), ∃ t, exec (.sub a) s = .next t ∧
    t.z = decide ((alu s.ac.toNat (s.memRead a.toNat).toNat .subtract).result = 0) ∧
    t.c = (alu s.ac.toNat (s.memRead a.toNat).toNat .subtract).carry ∧
    (t.c = true ↔ (s.memRead a.toNat).toNat ≤ s.ac.toNat)) ∧
  ∀ i : Instr, (∀ a, i ≠ .load a ∧ i ≠ .ldi a ∧ i ≠ .add a ∧ i ≠ .sub a) →
    ∀ s : State, ∃ t, exec i s = .next t ∧ t.z = s.z ∧ t.c = s.c

/-- The frame of LOAD, LDI, ADD and SUB: AC and the two flags may change; PC, IR, the run state and every cell stay. -/
def Obligations.AccumulatorFormsKeepTheirFrame : Prop :=
  ∀ (a : Nibble) (i : Instr), i ∈ [.load a, .ldi a, .add a, .sub a] → ∀ s : State,
    ∃ t, exec i s = .next t ∧ t.pc = s.pc ∧ t.ir = s.ir ∧ t.run = s.run ∧ ∀ x, t.memRead x = s.memRead x

/-- The frame of NOP, the undefined opcodes and HALT: no register, no flag and no cell changes, and the run state only
by HALT. -/
def Obligations.FormsWithoutResultKeepTheirFrame : Prop :=
  ∀ i : Instr, i ∈ [.nop, .undef6, .undef7, .undef8, .undef9, .undefA, .undefB, .undefC, .undefD, .undefE, .halt] →
    ∀ s : State, ∃ t, exec i s = .next t ∧ t.ac = s.ac ∧ t.pc = s.pc ∧ t.ir = s.ir ∧ t.z = s.z ∧ t.c = s.c ∧
      (i ≠ .halt → t.run = s.run) ∧ ∀ x, t.memRead x = s.memRead x

/-- The frame of STORE: no register, no flag and not the run state; every cell but the one addressed stays. -/
def Obligations.StoreKeepsItsFrame : Prop :=
  ∀ (a : Nibble) (s : State), ∃ t, exec (.store a) s = .next t ∧ t.ac = s.ac ∧ t.pc = s.pc ∧ t.ir = s.ir ∧
    t.z = s.z ∧ t.c = s.c ∧ t.run = s.run ∧ ∀ x, x % 16 ≠ operandAddress a → t.memRead x = s.memRead x

/-- "Z and C therefore never affect how a program executes; they are outputs only" (10_state.md §3, marked derived
there): two states that differ in the flags alone run alike for any number of cycles. -/
def Obligations.FlagsNeverAffectARun : Prop :=
  ∀ (k : Nat) (s s' : State), sameButFlags s s' →
    ∃ t t', runsTo k s t ∧ runsTo k s' t' ∧ sameButFlags t t'

/-- The access table of 41_fsm_cycle.md §1 (marked derived there), in the order of R42: opcode fetch, operand fetch, data
access; none while Halted. -/
def Obligations.CycleAccessesAreAsTabulated : Prop :=
  (∀ s : State, s.run = .halted → s.accesses = []) ∧
  ∀ s : State, s.run = .running →
    let op := (s.memRead s.pc.toNat).toNat
    let a := s.memRead (s.pc.toNat + 1)
    (op = 1 ∨ op = 3 ∨ op = 4 → s.accesses = [.fetch s.pc, .fetch (s.pc + 1), .read a]) ∧
    (op = 2 → s.accesses = [.fetch s.pc, .fetch (s.pc + 1), .write a]) ∧
    (op = 5 → s.accesses = [.fetch s.pc, .fetch (s.pc + 1)]) ∧
    (op = 0 ∨ 6 ≤ op → s.accesses = [.fetch s.pc])

/-- The access table of 41_fsm_cycle.md (marked derived there), with R42: a cycle's result depends on the cells it
fetches and reads and on no other, and it changes no cell but the one it writes. -/
def Obligations.CycleDependsOnTheCellsItAccesses : Prop :=
  ∀ s s' : State, sameButMemory s s' →
    (∀ cell : Nibble, .fetch cell ∈ s.accesses ∨ .read cell ∈ s.accesses →
      s.memRead cell.toNat = s'.memRead cell.toNat) →
    ∃ t t', step s = .next t ∧ step s' = .next t' ∧ sameButMemory t t' ∧
      ∀ cell : Nibble, if .write cell ∈ s.accesses then t.memRead cell.toNat = t'.memRead cell.toNat
        else t.memRead cell.toNat = s.memRead cell.toNat ∧ t'.memRead cell.toNat = s'.memRead cell.toNat

/-- Self-modifying code (20_memory.md §4 and 70_reset_and_hazards.md §3, marked derived there): after a STORE at `p`, the
next cycle fetches from memory as stored: the stored value decides the next opcode when it went to `p + 2`, and the next
operand when it went to `p + 3`. -/
def Obligations.StoreIsSeenByTheNextCycle : Prop :=
  ∀ s : State, s.run = .running → s.memRead s.pc.toNat = 2 →
    let a := s.memRead (s.pc.toNat + 1)
    let seen := fun x : Nat => if x % 16 = operandAddress a then s.ac else s.memRead x
    ∃ t, step s = .next t ∧ ∀ (i : Instr) (rest : List Nibble),
      decodeCells [seen (s.pc.toNat + 2), seen (s.pc.toNat + 3)] = .ok (i, rest) →
      step t = exec i
        { t with pc := mask4 (s.pc.toNat + 2 + (encode i).length), ir := (encode i).getLastD 0 }

/-- R99: every state has a next state, so no run stops by itself; a run in which no HALT is executed never ends. -/
def Obligations.EveryStateHasANextState : Prop :=
  (∀ s : State, ∃ t, step s = .next t) ∧
  (∀ (k : Nat) (s : State), ∃ t, runsTo k s t) ∧
  ∀ s : State, s.run = .running →
    (∀ (j : Nat) (u : State), runsTo j s u → u.memRead u.pc.toNat ≠ 15) →
    ∀ (k : Nat) (t : State), runsTo k s t → t.run = .running

/-- A bounded `run()` (41_fsm_cycle.md §1, R96): it ends exactly at a Halted state, with PC just after a HALT opcode and
IR = 0xF where it started Running (marked derived there), and more fuel does not change it; without one it is cut off
Running after exactly the fuel's cycles. The bound is the host's argument (log 6). -/
def Obligations.BoundedRunEndsInHalted : Prop :=
  ∀ (fuel : Nat) (s : State),
    (∃ t, runBounded fuel s = .next (.halted t) ∧ t.run = .halted ∧ runsTo fuel s t ∧
      (∀ more, runBounded (fuel + more) s = .next (.halted t)) ∧
      (s.run = .running → t.ir = 15 ∧ t.memRead (t.pc.toNat + 15) = 15)) ∨
    ∃ t, runBounded fuel s = .next (.outOfFuel t) ∧ t.run = .running ∧ runsTo fuel s t

/-- Every step keeps the invariant: memory in the model's canonical form (DESIGN CHOICE, log 1), by which no cell holds
a value outside 0 to 15 (R2), and a Halted processor just after a HALT with IR = 0xF. -/
def Obligations.StepKeepsInvariant : Prop :=
  ∀ s : State, s.inv → ∃ t, step s = .next t ∧ t.inv

/-- The invariant holds at reset: memory is in the model's canonical form (DESIGN CHOICE, log 1), and what it says of a
Halted processor holds there. -/
def Obligations.ResetMeetsInvariant : Prop :=
  State.reset.inv

/-! Reset and the host: 70_reset_and_hazards.md, 60_exceptions.md. -/

/-- The value of every element after power-on reset (R24), and that the first opcode is fetched from cell 0 (R161). The
last clause is over every launch: that a program comes to run by a load and host writes after reset is the spec's
decision D25 (DESIGN CHOICE, log 5), and that a load leaves PC is its decision D4 (DEDUCED, log 8). -/
def Obligations.ResetLeavesEveryElementAtItsValue : Prop :=
  State.reset.ac = 0 ∧ State.reset.pc = 0 ∧ State.reset.ir = 0 ∧ State.reset.z = false ∧ State.reset.c = false ∧
  State.reset.run = .running ∧ (∀ x, State.reset.memRead x = 0) ∧
  ∀ bytes writes, (fetch (launched bytes writes)).1 = (launched bytes writes).memRead 0

/-- The partial resets of 70_reset_and_hazards.md §1 (the spec's decision D6): power-on is the register-file reset, then
the memory clear, then Running; each part alone leaves the rest; only power-on leaves Halted. -/
def Obligations.OnlyPowerOnLeavesHalted : Prop :=
  (∀ s : State, hostOp .powerOn s = .next (State.reset, .nothing) ∧
    State.reset = (s.resetRegisterFile.clearMemory).setRun .running) ∧
  (∀ s : State, hostOp .registerFileReset s =
    .next ({ s with ac := 0, pc := 0, ir := 0, z := false, c := false }, .nothing)) ∧
  (∀ s : State, hostOp .clear s = .next ({ s with mem := State.reset.mem }, .nothing)) ∧
  ∀ (op : HostOp) (s t : State) (r : HostReply), s.run = .halted → hostOp op s = .next (t, r) →
    t.run = .running → op = .powerOn

/-- The register primitives of 10_state.md §4 (R18): a write stores the value modulo 16 in that register and changes
nothing else; increment, decrement and clear (marked derived there) are the writes of `v + 1`, `v + 15` and 0, and so
change nothing else either. The host reads and writes a register by them: 10_state.md §7, which rests on the spec's
decision D13 (DEDUCED, log 12). -/
def Obligations.RegisterPrimitivesCountModulo16 : Prop :=
  ∀ (s : State) (r q : Reg) (v : Nat),
    ((s.writeReg r v).readReg q).toNat = (if q = r then v % 16 else (s.readReg q).toNat) ∧
    (s.writeReg r v).mem = s.mem ∧ (s.writeReg r v).z = s.z ∧ (s.writeReg r v).c = s.c ∧
    (s.writeReg r v).run = s.run ∧
    s.incReg r = s.writeReg r ((s.readReg r).toNat + 1) ∧
    s.decReg r = s.writeReg r ((s.readReg r).toNat + 15) ∧
    s.clearReg r = s.writeReg r 0 ∧
    ((s.incReg r).readReg r).toNat = ((s.readReg r).toNat + 1) % 16 ∧
    ((s.decReg r).readReg r).toNat = ((s.readReg r).toNat + 15) % 16 ∧
    ((s.clearReg r).readReg r).toNat = 0 ∧
    hostOp (.writeRegister r v) s = .next (s.writeReg r v, .nothing) ∧
    hostOp (.readRegister r) s = .next (s, .nibble (s.readReg r))

/-- What the host observes between cycles (10_state.md §7 and 60_exceptions.md §6, which rest on the spec's decision
D13; DEDUCED, log 12): each register, each flag and the run state reads as the element of that name, and reading changes
nothing. It is the only way the flags are seen. -/
def Obligations.HostReadsAnswerTheNamedElement : Prop :=
  ∀ s : State,
    hostOp (.readRegister .ac) s = .next (s, .nibble s.ac) ∧
    hostOp (.readRegister .pc) s = .next (s, .nibble s.pc) ∧
    hostOp (.readRegister .ir) s = .next (s, .nibble s.ir) ∧
    hostOp (.readBit .z) s = .next (s, .bit s.z) ∧
    hostOp (.readBit .c) s = .next (s, .bit s.c) ∧
    hostOp (.readBit .halted) s = .next (s, .bit (decide (s.run = .halted)))

/-- The two operations of 60_exceptions.md §7 that run the processor. `cycle()` carries the state that a step answers.
`run()`, under the host's bound (DESIGN CHOICE, log 6), carries the state of the bounded run, which is that of the
steps taken one by one: it replies nothing where the run ended in Halted, and stillRunning where the bound cut it off;
and some Running state is cut off at every bound, since `run()` "may never return". -/
def Obligations.HostCycleAndRunStepTheMachine : Prop :=
  (∀ s : State, ∃ t, step s = .next t ∧ hostOp .cycle s = .next (t, .nothing)) ∧
  (∀ (fuel : Nat) (s : State),
    ∃ t, runsTo fuel s t ∧
      ((t.run = .halted ∧ runBounded fuel s = .next (.halted t) ∧ hostOp (.run fuel) s = .next (t, .nothing)) ∨
        (t.run = .running ∧ runBounded fuel s = .next (.outOfFuel t) ∧
          hostOp (.run fuel) s = .next (t, .stillRunning)))) ∧
  ∃ s : State, ∀ fuel : Nat, ∃ t, hostOp (.run fuel) s = .next (t, .stillRunning)

/-- Every host operation answers, and keeps the model's canonical form of memory (DESIGN CHOICE, log 1). Of `run()` this
is the model's run under the host's bound (DESIGN CHOICE, log 6): the hardware's `run()` may never return, and such a
run answers stillRunning, in a Running state; no other operation so answers. -/
def Obligations.HostOperationsKeepCanonicalMemory : Prop :=
  ∀ (op : HostOp) (s : State), s.mem.wf → ∃ t r, hostOp op s = .next (t, r) ∧ t.mem.wf ∧
    (r = .stillRunning → t.run = .running ∧ ∃ fuel, op = .run fuel)

/-- An access of one instance is seen by no other (R46). A cycle of instance `k` steps it and leaves every other as it
was, and cycles of two instances may be exchanged. That instances are a list, and that a number that names none changes
nothing, is the model's choice (DESIGN CHOICE, log 7). -/
def Obligations.InstancesDoNotInterfere : Prop :=
  (∀ (ps : Instances) (k : Nat) (s : State), ps[k]? = some s →
    ∃ t qs, step s = .next t ∧ stepInstance k ps = .next qs ∧ qs[k]? = some t ∧ qs.length = ps.length ∧
      ∀ j, j ≠ k → qs[j]? = ps[j]?) ∧
  ∀ (ps : Instances) (j k : Nat), j ≠ k →
    ∃ qj qk q, stepInstance j ps = .next qj ∧ stepInstance k ps = .next qk ∧
      stepInstance k qj = .next q ∧ stepInstance j qk = .next q

/-- The machine of gates, Nibbles and canonical memory runs as the machine of plain arithmetic does, for any number of
cycles from any state. -/
def Obligations.MachineRunsAsPlainArithmetic : Prop :=
  ∀ (k : Nat) (s : State), ∃ t, runsTo k s t ∧ t.arith = Arith.cycle^[k] s.arith
end

