-- ==== Sys2Proof/Laws/Word.lean ====
section
/-! SUPPORT. The small lemmas of `mask4`. -/

namespace Sys2Proof

@[simp] theorem toNat_mask4 (v : Nat) : (mask4 v).toNat = v % 16 := BitVec.toNat_ofNat v 4

@[simp] theorem mask4_toNat (v : Nibble) : mask4 v.toNat = v := BitVec.ofNat_toNat 4 v

theorem mask4_eq_mask4_iff (v w : Nat) : mask4 v = mask4 w ↔ v % 16 = w % 16 := by
  rw [← BitVec.toNat_inj, toNat_mask4, toNat_mask4]

theorem mask4_mod (v : Nat) : mask4 (v % 16) = mask4 v := by
  rw [mask4_eq_mask4_iff, Nat.mod_mod]

/-- A Nibble survives in the low half of a byte. -/
@[simp] theorem setWidth_byte_nibble (v : Nibble) : (v.setWidth 8).setWidth 4 = v := by
  apply BitVec.eq_of_toNat_eq
  simp only [BitVec.toNat_setWidth]
  omega

/-- A Nibble has no bit in the high half of a byte. -/
theorem setWidth_byte_lt (v : Nibble) : (v.setWidth 8).toNat < 16 := by
  simp only [BitVec.toNat_setWidth]
  omega

end Sys2Proof
end

