-- ==== Sys2Proof/Laws/Alu.lean ====
section
/-! SUPPORT. The small lemmas of the datapath. -/

namespace Sys2Proof.Machine

/-- A full adder adds three bits (40_datapath_adders.md R76). -/
theorem fullAdder_toNat (a b c : Bool) :
    (fullAdder a b c).sum.toNat + 2 * (fullAdder a b c).carry.toNat = a.toNat + b.toNat + c.toNat := by
  cases a <;> cases b <;> cases c <;> rfl

@[simp] theorem rippleChain_nil (c : Bool) : rippleChain [] c = ([], c) := rfl

theorem rippleChain_cons (a b c : Bool) (stages : List (Bool × Bool)) :
    rippleChain ((a, b) :: stages) c =
      ((fullAdder a b c).sum :: (rippleChain stages (fullAdder a b c).carry).1,
        (rippleChain stages (fullAdder a b c).carry).2) := rfl

/-- The bits of a Nibble spell it (R78). -/
theorem bitsToNat_bitsOf (v : Nibble) : bitsToNat (bitsOf v) = v.toNat := by
  revert v
  decide

/-- The unit takes its operands modulo 16 (R77). -/
theorem alu_mask4 (a b : Nat) (op : AluOp) : alu (mask4 a).toNat (mask4 b).toNat op = alu a b op := by
  simp only [alu, mask4_toNat]

end Sys2Proof.Machine
end

