-- ==== Sys2Proof/Laws/State.lean ====
section
/-! SUPPORT. One lemma per field per update of State, so that no proof unfolds a record update. -/

namespace Sys2Proof.Machine

@[simp] theorem State.setReg_ac_ac (s : State) (v : Nibble) : (s.setReg .ac v).ac = v := rfl
@[simp] theorem State.setReg_ac_pc (s : State) (v : Nibble) : (s.setReg .ac v).pc = s.pc := rfl
@[simp] theorem State.setReg_ac_ir (s : State) (v : Nibble) : (s.setReg .ac v).ir = s.ir := rfl
@[simp] theorem State.setReg_ac_z (s : State) (v : Nibble) : (s.setReg .ac v).z = s.z := rfl
@[simp] theorem State.setReg_ac_c (s : State) (v : Nibble) : (s.setReg .ac v).c = s.c := rfl
@[simp] theorem State.setReg_ac_run (s : State) (v : Nibble) : (s.setReg .ac v).run = s.run := rfl
@[simp] theorem State.setReg_ac_mem (s : State) (v : Nibble) : (s.setReg .ac v).mem = s.mem := rfl

@[simp] theorem State.setReg_pc_ac (s : State) (v : Nibble) : (s.setReg .pc v).ac = s.ac := rfl
@[simp] theorem State.setReg_pc_pc (s : State) (v : Nibble) : (s.setReg .pc v).pc = v := rfl
@[simp] theorem State.setReg_pc_ir (s : State) (v : Nibble) : (s.setReg .pc v).ir = s.ir := rfl
@[simp] theorem State.setReg_pc_z (s : State) (v : Nibble) : (s.setReg .pc v).z = s.z := rfl
@[simp] theorem State.setReg_pc_c (s : State) (v : Nibble) : (s.setReg .pc v).c = s.c := rfl
@[simp] theorem State.setReg_pc_run (s : State) (v : Nibble) : (s.setReg .pc v).run = s.run := rfl
@[simp] theorem State.setReg_pc_mem (s : State) (v : Nibble) : (s.setReg .pc v).mem = s.mem := rfl

@[simp] theorem State.setReg_ir_ac (s : State) (v : Nibble) : (s.setReg .ir v).ac = s.ac := rfl
@[simp] theorem State.setReg_ir_pc (s : State) (v : Nibble) : (s.setReg .ir v).pc = s.pc := rfl
@[simp] theorem State.setReg_ir_ir (s : State) (v : Nibble) : (s.setReg .ir v).ir = v := rfl
@[simp] theorem State.setReg_ir_z (s : State) (v : Nibble) : (s.setReg .ir v).z = s.z := rfl
@[simp] theorem State.setReg_ir_c (s : State) (v : Nibble) : (s.setReg .ir v).c = s.c := rfl
@[simp] theorem State.setReg_ir_run (s : State) (v : Nibble) : (s.setReg .ir v).run = s.run := rfl
@[simp] theorem State.setReg_ir_mem (s : State) (v : Nibble) : (s.setReg .ir v).mem = s.mem := rfl

@[simp] theorem State.setFlags_ac (s : State) (z c : Bool) : (s.setFlags z c).ac = s.ac := rfl
@[simp] theorem State.setFlags_pc (s : State) (z c : Bool) : (s.setFlags z c).pc = s.pc := rfl
@[simp] theorem State.setFlags_ir (s : State) (z c : Bool) : (s.setFlags z c).ir = s.ir := rfl
@[simp] theorem State.setFlags_z (s : State) (z c : Bool) : (s.setFlags z c).z = z := rfl
@[simp] theorem State.setFlags_c (s : State) (z c : Bool) : (s.setFlags z c).c = c := rfl
@[simp] theorem State.setFlags_run (s : State) (z c : Bool) : (s.setFlags z c).run = s.run := rfl
@[simp] theorem State.setFlags_mem (s : State) (z c : Bool) : (s.setFlags z c).mem = s.mem := rfl

@[simp] theorem State.setRun_ac (s : State) (r : RunState) : (s.setRun r).ac = s.ac := rfl
@[simp] theorem State.setRun_pc (s : State) (r : RunState) : (s.setRun r).pc = s.pc := rfl
@[simp] theorem State.setRun_ir (s : State) (r : RunState) : (s.setRun r).ir = s.ir := rfl
@[simp] theorem State.setRun_z (s : State) (r : RunState) : (s.setRun r).z = s.z := rfl
@[simp] theorem State.setRun_c (s : State) (r : RunState) : (s.setRun r).c = s.c := rfl
@[simp] theorem State.setRun_run (s : State) (r : RunState) : (s.setRun r).run = r := rfl
@[simp] theorem State.setRun_mem (s : State) (r : RunState) : (s.setRun r).mem = s.mem := rfl

@[simp] theorem State.memWrite_ac (s : State) (addr v : Nat) : (s.memWrite addr v).ac = s.ac := rfl
@[simp] theorem State.memWrite_pc (s : State) (addr v : Nat) : (s.memWrite addr v).pc = s.pc := rfl
@[simp] theorem State.memWrite_ir (s : State) (addr v : Nat) : (s.memWrite addr v).ir = s.ir := rfl
@[simp] theorem State.memWrite_z (s : State) (addr v : Nat) : (s.memWrite addr v).z = s.z := rfl
@[simp] theorem State.memWrite_c (s : State) (addr v : Nat) : (s.memWrite addr v).c = s.c := rfl
@[simp] theorem State.memWrite_run (s : State) (addr v : Nat) : (s.memWrite addr v).run = s.run := rfl
@[simp] theorem State.memWrite_mem (s : State) (addr v : Nat) : (s.memWrite addr v).mem = s.mem.write addr v := rfl

@[simp] theorem State.updateFlags_ac (s : State) (v : Nat) (carry : Bool) : (s.updateFlags v carry).ac = s.ac := rfl
@[simp] theorem State.updateFlags_pc (s : State) (v : Nat) (carry : Bool) : (s.updateFlags v carry).pc = s.pc := rfl
@[simp] theorem State.updateFlags_ir (s : State) (v : Nat) (carry : Bool) : (s.updateFlags v carry).ir = s.ir := rfl
@[simp] theorem State.updateFlags_z (s : State) (v : Nat) (carry : Bool) : (s.updateFlags v carry).z = zeroFlag v := rfl
@[simp] theorem State.updateFlags_c (s : State) (v : Nat) (carry : Bool) : (s.updateFlags v carry).c = carry := rfl
@[simp] theorem State.updateFlags_run (s : State) (v : Nat) (carry : Bool) : (s.updateFlags v carry).run = s.run := rfl
@[simp] theorem State.updateFlags_mem (s : State) (v : Nat) (carry : Bool) : (s.updateFlags v carry).mem = s.mem := rfl

@[simp] theorem State.writeAccumulator_ac (s : State) (v : Nibble) (carry : Bool) : (s.writeAccumulator v carry).ac = v := rfl
@[simp] theorem State.writeAccumulator_pc (s : State) (v : Nibble) (carry : Bool) : (s.writeAccumulator v carry).pc = s.pc := rfl
@[simp] theorem State.writeAccumulator_ir (s : State) (v : Nibble) (carry : Bool) : (s.writeAccumulator v carry).ir = s.ir := rfl
@[simp] theorem State.writeAccumulator_z (s : State) (v : Nibble) (carry : Bool) : (s.writeAccumulator v carry).z = zeroFlag v.toNat := rfl
@[simp] theorem State.writeAccumulator_c (s : State) (v : Nibble) (carry : Bool) : (s.writeAccumulator v carry).c = carry := rfl
@[simp] theorem State.writeAccumulator_run (s : State) (v : Nibble) (carry : Bool) : (s.writeAccumulator v carry).run = s.run := rfl
@[simp] theorem State.writeAccumulator_mem (s : State) (v : Nibble) (carry : Bool) : (s.writeAccumulator v carry).mem = s.mem := rfl

@[simp] theorem State.resetRegisterFile_ac (s : State) : (s.resetRegisterFile).ac = 0 := rfl
@[simp] theorem State.resetRegisterFile_pc (s : State) : (s.resetRegisterFile).pc = 0 := rfl
@[simp] theorem State.resetRegisterFile_ir (s : State) : (s.resetRegisterFile).ir = 0 := rfl
@[simp] theorem State.resetRegisterFile_z (s : State) : (s.resetRegisterFile).z = false := rfl
@[simp] theorem State.resetRegisterFile_c (s : State) : (s.resetRegisterFile).c = false := rfl
@[simp] theorem State.resetRegisterFile_run (s : State) : (s.resetRegisterFile).run = s.run := rfl
@[simp] theorem State.resetRegisterFile_mem (s : State) : (s.resetRegisterFile).mem = s.mem := rfl

@[simp] theorem State.readReg_ac (s : State) : s.readReg .ac = s.ac := rfl
@[simp] theorem State.readReg_pc (s : State) : s.readReg .pc = s.pc := rfl
@[simp] theorem State.readReg_ir (s : State) : s.readReg .ir = s.ir := rfl

@[simp] theorem cellCount_eq : Config.cellCount = 16 := rfl

/-- Memory is read through the memory field alone. -/
theorem State.memRead_eq (s : State) (addr : Nat) : s.memRead addr = s.mem.read addr := rfl

@[simp] theorem State.readReg_setReg (s : State) (r q : Reg) (v : Nibble) :
    (s.setReg r v).readReg q = if q = r then v else s.readReg q := by
  cases r <;> cases q <;> rfl

@[simp] theorem State.setReg_mem (s : State) (r : Reg) (v : Nibble) : (s.setReg r v).mem = s.mem := by cases r <;> rfl
@[simp] theorem State.setReg_run (s : State) (r : Reg) (v : Nibble) : (s.setReg r v).run = s.run := by cases r <;> rfl
@[simp] theorem State.setReg_z (s : State) (r : Reg) (v : Nibble) : (s.setReg r v).z = s.z := by cases r <;> rfl
@[simp] theorem State.setReg_c (s : State) (r : Reg) (v : Nibble) : (s.setReg r v).c = s.c := by cases r <;> rfl

theorem zeroFlag_nibble (v : Nibble) : zeroFlag v.toNat = decide (v = 0) := by
  simp only [zeroFlag, mask4_toNat]
  rfl

end Sys2Proof.Machine
end

