-- ==== Sys2Proof/Laws/Memory.lean ====
section
/-! SUPPORT. Memory: a read after a write, that every operation keeps the canonical form, and what the bulk operations
do. Later proofs cite these and do not unfold the list operations. -/

namespace Sys2Proof.Machine

theorem Memory.lookupByte_eraseCell (m : Memory) (k j : Nat) :
    (m.eraseCell k).lookupByte j = if j = k then Config.unlistedByte else m.lookupByte j := by
  unfold Memory.eraseCell
  induction m with
  | nil => simp [Memory.lookupByte]
  | cons x m ih =>
    obtain ⟨a, b⟩ := x
    by_cases ha : a = k
    · subst ha
      by_cases hj : j = a <;> simp_all [Memory.lookupByte, Ne.symm]
    · by_cases hj : a = j <;> simp_all [Memory.lookupByte]

theorem Memory.ne_of_mem_eraseCell {m : Memory} {k : Nat} {x : Host.Cell} (hx : x ∈ m.eraseCell k) : x.1 ≠ k := by
  simp [Memory.eraseCell] at hx
  exact hx.2

theorem Memory.lookupByte_insertCell (m : Memory) (k j : Nat) (b : BitVec 8) (hne : ∀ x ∈ m, x.1 ≠ k) :
    (m.insertCell k b).lookupByte j = if j = k then b else m.lookupByte j := by
  induction m with
  | nil => simp [Memory.insertCell, Memory.lookupByte, eq_comm]
  | cons x m ih =>
    obtain ⟨a, y⟩ := x
    have hak : a ≠ k := hne (a, y) (by simp)
    have ih := ih (fun x hx => hne x (by simp [hx]))
    unfold Memory.insertCell
    split
    · simp [Memory.lookupByte, eq_comm]
    · by_cases hj : a = j
      · simp [Memory.lookupByte, hj, hj ▸ hak]
      · simp [Memory.lookupByte, ih, hj]

theorem Memory.write_eq (m : Memory) (addr v : Nat) :
    m.write addr v =
      if (mask4 v).setWidth 8 = Config.unlistedByte then m.eraseCell (addr % 16)
      else (m.eraseCell (addr % 16)).insertCell (addr % 16) ((mask4 v).setWidth 8) := rfl

/-- What a listed byte is after a write. -/
theorem Memory.lookupByte_write (m : Memory) (addr v j : Nat) :
    (m.write addr v).lookupByte j = if j = addr % 16 then (mask4 v).setWidth 8 else m.lookupByte j := by
  rw [Memory.write_eq]
  split
  · next h => rw [Memory.lookupByte_eraseCell, h]
  · rw [Memory.lookupByte_insertCell _ _ _ _ (fun _ => Memory.ne_of_mem_eraseCell), Memory.lookupByte_eraseCell]
    by_cases hj : j = addr % 16 <;> simp [hj]

/-- The read after a write (20_memory.md R33): the written cell, named modulo 16, holds the value modulo 16, and every
other cell what it held. -/
theorem Memory.read_write (m : Memory) (addr v x : Nat) :
    (m.write addr v).read x = if x % 16 = addr % 16 then mask4 v else m.read x := by
  simp only [Memory.read, Memory.lookupByte_write]
  split <;> simp

@[simp] theorem State.memRead_memWrite (s : State) (addr v x : Nat) :
    (s.memWrite addr v).memRead x = if x % 16 = addr % 16 then mask4 v else s.memRead x :=
  Memory.read_write s.mem addr v x

/-- An address counts modulo 16 (R31). -/
theorem Memory.read_mod (m : Memory) (x : Nat) : m.read (x % 16) = m.read x := by
  simp [Memory.read]

theorem State.memRead_mod (s : State) (x : Nat) : s.memRead (x % 16) = s.memRead x := Memory.read_mod s.mem x

/-- Every cell of the empty memory holds 0 (R24). -/
@[simp] theorem Memory.read_nil (x : Nat) : Memory.read [] x = 0 := rfl

theorem Memory.eraseCell_wf {m : Memory} (k : Nat) (h : m.wf) : (m.eraseCell k).wf :=
  ⟨h.1.filter _, fun x hx => h.2 x (List.mem_of_mem_filter hx)⟩

theorem Memory.mem_insertCell {m : Memory} {k : Nat} {b : BitVec 8} {x : Host.Cell} (hx : x ∈ m.insertCell k b) :
    x = (k, b) ∨ x ∈ m := by
  induction m with
  | nil => simpa [Memory.insertCell] using hx
  | cons y m ih =>
    unfold Memory.insertCell at hx
    split at hx
    · simpa using hx
    · rcases List.mem_cons.mp hx with rfl | hx
      · simp
      · rcases ih hx with h | h <;> simp [h]

theorem Memory.insertCell_wf {m : Memory} {k : Nat} {b : BitVec 8} (h : m.wf) (hne : ∀ x ∈ m, x.1 ≠ k)
    (hk : k < 16) (hb : b.toNat < 16) (hb0 : b ≠ Config.unlistedByte) : (m.insertCell k b).wf := by
  refine ⟨?_, fun x hx => ?_⟩
  · obtain ⟨h, -⟩ := h
    induction m with
    | nil => simp [Memory.insertCell]
    | cons y m ih =>
      obtain ⟨a, c⟩ := y
      have hak : a ≠ k := hne (a, c) (by simp)
      rw [List.pairwise_cons] at h
      unfold Memory.insertCell
      split
      · next hlt =>
        refine List.pairwise_cons.mpr ⟨fun x hx => ?_, List.pairwise_cons.mpr h⟩
        rcases List.mem_cons.mp hx with rfl | hx
        · exact hlt
        · exact Nat.lt_trans hlt (h.1 x hx)
      · next hge =>
        refine List.pairwise_cons.mpr ⟨fun x hx => ?_, ih (fun x hx => hne x (by simp [hx])) h.2⟩
        rcases Memory.mem_insertCell hx with rfl | hx
        · exact Nat.lt_of_le_of_ne (Nat.le_of_not_lt hge) hak
        · exact h.1 x hx
  · rcases Memory.mem_insertCell hx with rfl | hx
    · exact ⟨hk, hb, hb0⟩
    · exact h.2 x hx

/-- A write keeps the canonical form. -/
theorem Memory.write_wf {m : Memory} (addr v : Nat) (h : m.wf) : (m.write addr v).wf := by
  rw [Memory.write_eq]
  split
  · exact Memory.eraseCell_wf _ h
  · next hb =>
    exact Memory.insertCell_wf (Memory.eraseCell_wf _ h) (fun _ => Memory.ne_of_mem_eraseCell)
      (Nat.mod_lt _ (by decide)) (setWidth_byte_lt _) hb

theorem Memory.writeCells_wf {m : Memory} (addr : Nat) (vs : List Nat) (h : m.wf) : (m.writeCells addr vs).wf := by
  induction vs generalizing m addr with
  | nil => exact h
  | cons v vs ih => exact ih (addr + 1) (Memory.write_wf addr v h)

theorem Memory.loadProgram_wf {m : Memory} (bytes : List Nat) (h : m.wf) : (m.loadProgram bytes).wf :=
  Memory.writeCells_wf 0 _ h

theorem Memory.nil_wf : Memory.wf [] := by decide

theorem Memory.clear_wf (m : Memory) : m.clear.wf := Memory.nil_wf

/-- The memory at reset is canonical. -/
theorem State.reset_mem_wf : State.reset.mem.wf := Memory.nil_wf

@[simp] theorem Memory.length_dump (m : Memory) : m.dump.length = 16 := by
  simp [Memory.dump]

@[simp] theorem Memory.getElem_dump (m : Memory) (k : Nat) (h : k < m.dump.length) : m.dump[k] = m.read k := by
  simp [Memory.dump]

end Sys2Proof.Machine
end

