-- ==== Sys2Proof/Laws/Fetch.lean ====
section
/-! SUPPORT. What a fetch, a decode and a cycle can do, said once. -/

namespace Sys2Proof.Machine

/-- `fetch()` returns the cell at PC, puts it into IR and moves PC on by one (41_fsm_cycle.md R91). -/
theorem fetch_eq (s : State) :
    fetch s = (s.memRead s.pc.toNat, s.afterFetches 1 (s.memRead s.pc.toNat)) := rfl

theorem fetch_afterFetches (s : State) (v : Nibble) :
    fetch (s.afterFetches 1 v) = (s.memRead (s.pc.toNat + 1), s.afterFetches 2 (s.memRead (s.pc.toNat + 1))) := by
  have hread : (s.afterFetches 1 v).memRead (s.afterFetches 1 v).pc.toNat = s.memRead (s.pc.toNat + 1) := by
    show s.mem.read (mask4 (s.pc.toNat + 1)).toNat = _
    rw [toNat_mask4, Memory.read_mod]
    rfl
  have hpc : mask4 ((mask4 (s.pc.toNat + 1)).toNat + 1) = mask4 (s.pc.toNat + 2) := by
    rw [mask4_eq_mask4_iff, toNat_mask4]
    omega
  rw [fetch_eq, hread]
  simp only [State.afterFetches, hpc]

/-- An opcode without operand is fetched alone (R92). -/
theorem fetchDecode_noOperand {s : State} {i : Instr} (h : opcodeMap (s.memRead s.pc.toNat) = .noOperand i) :
    fetchDecode s = (i, s.afterFetches 1 (s.memRead s.pc.toNat)) := by
  simp only [fetchDecode, fetch_eq s, h]

/-- An opcode with operand makes a second fetch, which returns the operand (R92, R58). -/
theorem fetchDecode_withOperand {s : State} {mk : Nibble → Instr}
    (h : opcodeMap (s.memRead s.pc.toNat) = .withOperand mk) :
    fetchDecode s = (mk (s.memRead (s.pc.toNat + 1)), s.afterFetches 2 (s.memRead (s.pc.toNat + 1))) := by
  simp only [fetchDecode, fetch_eq s, h, fetch_afterFetches]

theorem step_running {s : State} (h : s.run = .running) : step s = exec (fetchDecode s).1 (fetchDecode s).2 := by
  simp only [step, cycle, h]

theorem step_halted {s : State} (h : s.run = .halted) : step s = .next s := by
  simp only [step, cycle, h]

/-- A placed word lies in the two cells that the next cycle fetches first, and the processor is Running. -/
theorem withFetchWord_cells (s : State) (nbits w : Nat) :
    (s.withFetchWord nbits w).run = .running ∧ (s.withFetchWord nbits w).pc = s.pc ∧
      [(s.withFetchWord nbits w).memRead s.pc.toNat, (s.withFetchWord nbits w).memRead (s.pc.toNat + 1)] =
        tableWordCells nbits w := by
  refine ⟨rfl, rfl, ?_⟩
  simp only [State.withFetchWord, State.placeWord, tableWordCells, State.memRead_eq, List.map_cons, List.map_nil,
    Memory.writeCells, Memory.read_write, mask4_toNat, if_true]
  have h : s.pc.toNat % 16 ≠ (s.pc.toNat + 1) % 16 := by omega
  simp [h]

theorem runsTo_zero {s t : State} : runsTo 0 s t ↔ t = s := by
  simp [runsTo, cycles, eq_comm]

/-- A run of one more cycle is a step and then the run. -/
theorem runsTo_succ {k : Nat} {s u t : State} (h : step s = .next u) : runsTo (k + 1) s t ↔ runsTo k u t := by
  simp only [runsTo, cycles, h]

theorem run_next (M : Host.Core) {s t : M.State} (k : Nat) (h : M.step s = .next t) : M.run (k + 1) s = M.run k t := by
  simp only [Host.Core.run, h]

theorem run_refused (M : Host.Core) {s : M.State} {r : M.Refusal} (k : Nat) (h : M.step s = .refused r) :
    M.run (k + 1) s = .refused r := by
  simp only [Host.Core.run, h]

/-- The host's run of the machine is `cycles`. -/
theorem core_run_eq_cycles (k : Nat) (s : State) : Host.Core.run Sys2Proof.core k s = cycles k s := by
  induction k generalizing s with
  | zero => rfl
  | succ k ih =>
    cases h : step s with
    | next t =>
      have hc : cycles (k + 1) s = cycles k t := by simp only [cycles, h]
      exact (run_next Sys2Proof.core k h).trans ((ih t).trans hc.symm)
    | fault r => cases r
    | refused r =>
      have hc : cycles (k + 1) s = .refused r := by simp only [cycles, h]
      exact (run_refused Sys2Proof.core k h).trans hc.symm

@[simp] theorem State.afterFetches_memRead (s : State) (n : Nat) (v : Nibble) (x : Nat) :
    (s.afterFetches n v).memRead x = s.memRead x := rfl

@[simp] theorem State.afterFetches_mem (s : State) (n : Nat) (v : Nibble) : (s.afterFetches n v).mem = s.mem := rfl
@[simp] theorem State.afterFetches_ac (s : State) (n : Nat) (v : Nibble) : (s.afterFetches n v).ac = s.ac := rfl
@[simp] theorem State.afterFetches_z (s : State) (n : Nat) (v : Nibble) : (s.afterFetches n v).z = s.z := rfl
@[simp] theorem State.afterFetches_c (s : State) (n : Nat) (v : Nibble) : (s.afterFetches n v).c = s.c := rfl
@[simp] theorem State.afterFetches_run (s : State) (n : Nat) (v : Nibble) : (s.afterFetches n v).run = s.run := rfl
@[simp] theorem State.afterFetches_ir (s : State) (n : Nat) (v : Nibble) : (s.afterFetches n v).ir = v := rfl
@[simp] theorem State.afterFetches_pc (s : State) (n : Nat) (v : Nibble) :
    (s.afterFetches n v).pc = mask4 (s.pc.toNat + n) := rfl

end Sys2Proof.Machine
end

