-- ==== Sys2Proof/Laws/PerInstr.lean ====
section
/-! SUPPORT. Statements made of every instruction as syntax, one lemma per constructor. -/

namespace Sys2Proof.Laws.OpcodeCell

/-- The opcode map takes the opcode cell of an instruction back to it: at once for one cell, with the operand for two
(30_encoding.md R50, R54). -/
def Statement (i : Instr) : Prop :=
  match i.operand with
  | none => opcodeMap i.opcode = .noOperand i
  | some a => ∃ mk, opcodeMap i.opcode = .withOperand mk ∧ mk a = i

theorem nop : Statement .nop := rfl
theorem load (a : Nibble) : Statement (.load a) := ⟨_, rfl, rfl⟩
theorem store (a : Nibble) : Statement (.store a) := ⟨_, rfl, rfl⟩
theorem add (a : Nibble) : Statement (.add a) := ⟨_, rfl, rfl⟩
theorem sub (a : Nibble) : Statement (.sub a) := ⟨_, rfl, rfl⟩
theorem ldi (i : Nibble) : Statement (.ldi i) := ⟨_, rfl, rfl⟩
theorem undef6 : Statement .undef6 := rfl
theorem undef7 : Statement .undef7 := rfl
theorem undef8 : Statement .undef8 := rfl
theorem undef9 : Statement .undef9 := rfl
theorem undefA : Statement .undefA := rfl
theorem undefB : Statement .undefB := rfl
theorem undefC : Statement .undefC := rfl
theorem undefD : Statement .undefD := rfl
theorem undefE : Statement .undefE := rfl
theorem halt : Statement .halt := rfl

end Sys2Proof.Laws.OpcodeCell
end

