-- ==== Sys2Proof/Tests/Slice0.lean ====
section
/-! SUPPORT. The model's own tests. Expected values are those of spec/95_test_vectors.md (its section is named at each
group) and of the rules' worked examples; the words of the decode tests are written out from 30_encoding.md R54. At the
end stand the witnesses: states and operands that meet the hypotheses of the statements. -/

namespace Sys2Proof.Tests

open Sys2Proof.Machine

/-! Well-formedness (R60): an operand of 16 is refused in every line that has one. -/

theorem test_wf_load_16 : (AsmLine.load 16).wf = false := by decide
theorem test_wf_store_16 : (AsmLine.store 16).wf = false := by decide
theorem test_wf_add_16 : (AsmLine.add 16).wf = false := by decide
theorem test_wf_sub_16 : (AsmLine.sub 16).wf = false := by decide
theorem test_wf_ldi_16 : (AsmLine.ldi 16).wf = false := by decide
theorem test_wf_cell_16 : (AsmLine.cell 16).wf = false := by decide
theorem test_wf_accepts_15 : (AsmLine.ldi 15).wf = true := by decide
theorem test_memory_wf_refuses_disorder : ¬ Memory.wf [(3, 1), (2, 1)] := by decide
theorem test_memory_wf_refuses_repeat : ¬ Memory.wf [(3, 1), (3, 2)] := by decide
theorem test_memory_wf_refuses_listed_zero : ¬ Memory.wf [(3, 0)] := by decide
theorem test_memory_wf_refuses_high_half : ¬ Memory.wf [(3, 0x25)] := by decide
theorem test_memory_wf_refuses_address_16 : ¬ Memory.wf [(16, 1)] := by decide

/-! Decoding: words written out from R54. -/

theorem test_decode_nop : decodeCells [0b0000#4] = .ok (.nop, []) := rfl
theorem test_decode_load : decodeCells [0b0001#4, 0b1100#4] = .ok (.load 12, []) := rfl
theorem test_decode_store : decodeCells [0b0010#4, 0b1110#4] = .ok (.store 14, []) := rfl
theorem test_decode_add : decodeCells [0b0011#4, 0b1101#4] = .ok (.add 13, []) := rfl
theorem test_decode_sub : decodeCells [0b0100#4, 0b0001#4] = .ok (.sub 1, []) := rfl
theorem test_decode_ldi : decodeCells [0b0101#4, 0b0101#4] = .ok (.ldi 5, []) := rfl
theorem test_decode_undef6 : decodeCells [0b0110#4, 0b1010#4] = .ok (.undef6, [10]) := rfl
theorem test_decode_undef7 : decodeCells [0b0111#4] = .ok (.undef7, []) := rfl
theorem test_decode_undef8 : decodeCells [0b1000#4] = .ok (.undef8, []) := rfl
theorem test_decode_undef9 : decodeCells [0b1001#4] = .ok (.undef9, []) := rfl
theorem test_decode_undefA : decodeCells [0b1010#4] = .ok (.undefA, []) := rfl
theorem test_decode_undefB : decodeCells [0b1011#4] = .ok (.undefB, []) := rfl
theorem test_decode_undefC : decodeCells [0b1100#4] = .ok (.undefC, []) := rfl
theorem test_decode_undefD : decodeCells [0b1101#4] = .ok (.undefD, []) := rfl
theorem test_decode_undefE : decodeCells [0b1110#4] = .ok (.undefE, []) := rfl
theorem test_decode_halt : decodeCells [0b1111#4] = .ok (.halt, []) := rfl
theorem test_decode_stops_without_cells : decodeCells [] = .error .noOpcodeCell := rfl
theorem test_decode_stops_without_operand : decodeCells [0x4#4] = .error .noOperandCell := rfl
theorem test_decode_table_word_store : decodeTableWord 8 0xE2 = some (.store 14) := by decide
theorem test_decode_table_word_halt : decodeTableWord 8 0x0F = some .halt := by decide
theorem test_decode_table_word_of_four_bits : decodeTableWord 4 0x5 = some (.ldi 0) := by decide

/-! Assembler: the listing and its image in 30_encoding.md §4. -/

theorem test_assemble_listing : assemble [.ldi 5, .add 13, .store 14, .halt] = some [5, 5, 3, 13, 2, 14, 15] := by decide
theorem test_parse_hexadecimal_address :
    parseLine ['A', 'D', 'D', ' ', '@', '0', 'x', 'D'] = some (.add 13) := by decide
theorem test_parse_decimal_immediate : parseLine ['L', 'D', 'I', ' ', '1', '5'] = some (.ldi 15) := by decide
theorem test_parse_needs_the_at_sign : parseLine ['S', 'U', 'B', ' ', '1'] = none := by decide

/-! Datapath: 95 §2 and §3.3. -/

theorem test_full_adder_row : fullAdder false true true = ⟨false, true⟩ := by decide
theorem test_alu_add_ripples : alu 15 1 .add = ⟨0, true, true⟩ := by decide
theorem test_alu_add_wraps : alu 15 15 .add = ⟨14, true, false⟩ := by decide
theorem test_alu_subtract_borrows : alu 3 5 .subtract = ⟨14, false, false⟩ := by decide
theorem test_alu_subtract_zero : alu 9 9 .subtract = ⟨0, true, true⟩ := by decide
theorem test_alu_masks_255 : alu 255 1 .add = ⟨0, true, true⟩ := by decide
theorem test_alu_masks_16 : alu 16 3 .subtract = ⟨13, false, false⟩ := by decide
theorem test_alu_masks_both : alu 55 37 .add = ⟨12, false, false⟩ := by decide

/-! Memory: 95 §1.4. -/

theorem test_write_31_reads_at_15 : (Memory.write [] 31 9).read 15 = 9 := by decide
theorem test_write_16_masks_value : (Memory.write [] 16 0x1A).read 0 = 0xA := by decide
theorem test_write_47_reads_at_31 : (Memory.write [] 47 255).read 31 = 0xF := by decide
theorem test_write_zero_removes_entry : Memory.write [(2, 1), (5, 7)] 5 0 = [(2, 1)] := by decide
theorem test_load_program_drops_excess :
    (Memory.loadProgram [] [0x25, 0, 0, 0, 0, 0, 0, 0, 0, 0, 0, 0, 0, 0, 0, 2, 9]).dump =
      [5, 0, 0, 0, 0, 0, 0, 0, 0, 0, 0, 0, 0, 0, 0, 2] := by decide

/-! One cycle from the start state of 95 §4: PC = 3, AC = 6, Z = 0, C = 1, M[4] = 0xA, M[0xA] = 2. -/

/-- The start state of 95 §4 with an opcode in M[3]. -/
def start (op : Nat) : State where
  ac := 6
  pc := 3
  ir := 0
  z := false
  c := true
  run := .running
  mem := Memory.writeCells [(4, 0xA), (10, 2)] 3 [op]

/-- What an outcome shows of the registers: PC, IR, AC, Z, C. -/
def regs : Result → Option (Nibble × Nibble × Nibble × Bool × Bool)
  | .next s => some (s.pc, s.ir, s.ac, s.z, s.c)
  | .fault _ => none
  | .refused _ => none

/-- What an outcome shows of one cell and of the run state. -/
def cellAndRun (addr : Nat) : Result → Option (Nibble × RunState)
  | .next s => some (s.memRead addr, s.run)
  | .fault _ => none
  | .refused _ => none

theorem test_cycle_nop : regs (step (start 0x0)) = some (4, 0x0, 6, false, true) := by decide
theorem test_cycle_load : regs (step (start 0x1)) = some (5, 0xA, 2, false, false) := by decide
theorem test_cycle_store : regs (step (start 0x2)) = some (5, 0xA, 6, false, true) := by decide
theorem test_cycle_store_cell : cellAndRun 0xA (step (start 0x2)) = some (6, .running) := by decide
theorem test_cycle_add : regs (step (start 0x3)) = some (5, 0xA, 8, false, false) := by decide
theorem test_cycle_sub : regs (step (start 0x4)) = some (5, 0xA, 4, false, true) := by decide
theorem test_cycle_ldi : regs (step (start 0x5)) = some (5, 0xA, 10, false, false) := by decide
theorem test_cycle_undef6 : regs (step (start 0x6)) = some (4, 0x6, 6, false, true) := by decide
theorem test_cycle_undef7 : regs (step (start 0x7)) = some (4, 0x7, 6, false, true) := by decide
theorem test_cycle_undef8 : regs (step (start 0x8)) = some (4, 0x8, 6, false, true) := by decide
theorem test_cycle_undef9 : regs (step (start 0x9)) = some (4, 0x9, 6, false, true) := by decide
theorem test_cycle_undefA : regs (step (start 0xA)) = some (4, 0xA, 6, false, true) := by decide
theorem test_cycle_undefB : regs (step (start 0xB)) = some (4, 0xB, 6, false, true) := by decide
theorem test_cycle_undefC : regs (step (start 0xC)) = some (4, 0xC, 6, false, true) := by decide
theorem test_cycle_undefD : regs (step (start 0xD)) = some (4, 0xD, 6, false, true) := by decide
theorem test_cycle_undefE : regs (step (start 0xE)) = some (4, 0xE, 6, false, true) := by decide
theorem test_cycle_halt_stops : cellAndRun 3 (step (start 0xF)) = some (0xF, .halted) := by decide

/-! Corners: 95 §4 and §5. -/

/-- A Running state with PC and AC given, flags set, and cells written from an address on. -/
def stateAt (pc ac : Nibble) (addr : Nat) (cells : List Nat) : State where
  ac := ac
  pc := pc
  ir := 0
  z := true
  c := true
  run := .running
  mem := Memory.writeCells [] addr cells

theorem test_ldi_takes_operand_from_cell_0 : regs (step (stateAt 15 0 15 [5, 9])) = some (1, 9, 9, false, false) := by decide
theorem test_halt_at_15_wraps_pc : regs (step (stateAt 15 0 15 [15])) = some (0, 0xF, 0, true, true) := by decide
theorem test_load_of_zero_sets_z : regs (step (stateAt 2 3 2 [1, 12])) = some (4, 12, 0, true, false) := by decide
theorem test_add_sets_carry_and_zero : regs (step (stateAt 2 15 2 [3, 4, 1])) = some (4, 4, 0, true, true) := by decide
theorem test_sub_borrow_clears_c : regs (step (stateAt 2 3 2 [4, 4, 5])) = some (4, 4, 14, false, false) := by decide
theorem test_nop_in_empty_memory : regs (step (stateAt 7 6 0 [])) = some (8, 0, 6, true, true) := by decide

/-! Placing a word of the opcode table, and reset. -/

theorem test_placed_word_runs_first : regs (step (State.reset.withFetchWord 8 0x95)) = some (2, 9, 9, false, false) := by decide
theorem test_placed_word_runs_when_halted :
    regs (step ((State.reset.setRun .halted).withFetchWord 8 0x0F)) = some (1, 0xF, 0, false, false) := by decide

/-! Witnesses: the hypotheses of the statements can be met, each statement's together. -/

/-- A Halted state that meets the invariant: HALT stands in cell 14. -/
def haltedState : State where
  ac := 1
  pc := 15
  ir := 15
  z := false
  c := false
  run := .halted
  mem := [(14, 15)]

theorem witness_CanonicalMemoriesThatReadAlikeAreEqual :
    Memory.wf [(2, 1), (5, 7)] ∧ ∀ k, k < 16 → Memory.read [(2, 1), (5, 7)] k = Memory.read [(2, 1), (5, 7)] k :=
  ⟨by decide, fun _ _ => rfl⟩

theorem witness_LoadProgram_last_cell_written :
    (State.reset.loadProgram [7, 0x19]).memRead 1 = 9 ∧ (State.reset.loadProgram [7, 0x19]).memRead 2 = 0 := by decide

theorem witness_EncodeOfDecode_two_cells : decodeCells [0x5#4, 0x9#4, 0x3#4] = .ok (.ldi 9, [3]) := rfl
theorem witness_EncodeOfDecode_one_cell : decodeCells [0xE#4, 0x9#4] = .ok (.undefE, [9]) := rfl

theorem witness_EveryCellValue_boundaries :
    (1 ≤ (1#4).toNat ∧ (1#4).toNat ≤ 5) ∧ (1 ≤ (5#4).toNat ∧ (5#4).toNat ≤ 5) ∧
    (6 ≤ (6#4).toNat ∧ (6#4).toNat ≤ 14) ∧ (6 ≤ (14#4).toNat ∧ (14#4).toNat ≤ 14) ∧
    ¬ (1 ≤ (0#4).toNat ∧ (0#4).toNat ≤ 5) ∧ ¬ (6 ≤ (15#4).toNat ∧ (15#4).toNat ≤ 14) := by decide

theorem witness_Assembler_rejected : (AsmLine.add 16).operand = some 16 ∧ 15 < 16 := by decide
theorem witness_Assembler_accepted :
    assembleLine (.add 15) = some [3, 15] ∧ ∀ v, AsmLine.add 15 ≠ .cell v := ⟨by decide, fun _ => by simp⟩

theorem witness_StepRuns_one_cell :
    (start 0xF).run = .running ∧
      decodeCells [(start 0xF).memRead (start 0xF).pc.toNat, (start 0xF).memRead ((start 0xF).pc.toNat + 1)] =
        .ok (.halt, [10]) := ⟨rfl, rfl⟩
theorem witness_StepRuns_across_cell_15 :
    (stateAt 15 0 15 [5, 9]).run = .running ∧
      decodeCells [(stateAt 15 0 15 [5, 9]).memRead (stateAt 15 0 15 [5, 9]).pc.toNat,
        (stateAt 15 0 15 [5, 9]).memRead ((stateAt 15 0 15 [5, 9]).pc.toNat + 1)] = .ok (.ldi 9, []) := ⟨rfl, rfl⟩

theorem witness_Ir_two_cells : (start 5).run = .running ∧ ((start 5).memRead (start 5).pc.toNat).toNat = 5 := by decide
theorem witness_Ir_one_cell : (start 6).run = .running ∧ ((start 6).memRead (start 6).pc.toNat).toNat = 6 := by decide
theorem witness_OnlyFetch_pc_15 : (stateAt 15 0 15 [5, 9]).pc = 15 := by decide

theorem witness_Load_own_opcode :
    (stateAt 2 0 2 [1, 2]).run = .running ∧ (stateAt 2 0 2 [1, 2]).memRead (stateAt 2 0 2 [1, 2]).pc.toNat = 1 ∧
      (stateAt 2 0 2 [1, 2]).memRead ((stateAt 2 0 2 [1, 2]).pc.toNat + 1) = (stateAt 2 0 2 [1, 2]).pc := by decide
theorem witness_Load_own_operand :
    (stateAt 2 0 2 [1, 3]).run = .running ∧ (stateAt 2 0 2 [1, 3]).memRead (stateAt 2 0 2 [1, 3]).pc.toNat = 1 ∧
      (stateAt 2 0 2 [1, 3]).memRead ((stateAt 2 0 2 [1, 3]).pc.toNat + 1) = (stateAt 2 0 2 [1, 3]).pc + 1 := by decide
theorem witness_Load_clears_carry (a : Nibble) : ∀ s t : State, exec (.load a) s = .next t → t.c = false := by
  intro s t h
  cases h
  rfl

theorem witness_Store_next_opcode :
    (stateAt 2 15 2 [2, 4]).run = .running ∧ (stateAt 2 15 2 [2, 4]).memRead (stateAt 2 15 2 [2, 4]).pc.toNat = 2 ∧
      (stateAt 2 15 2 [2, 4]).memRead ((stateAt 2 15 2 [2, 4]).pc.toNat + 1) = (stateAt 2 15 2 [2, 4]).pc + 2 := by decide

theorem witness_Ldi_at_15 :
    (stateAt 15 0 15 [5, 9]).run = .running ∧ (stateAt 15 0 15 [5, 9]).memRead (stateAt 15 0 15 [5, 9]).pc.toNat = 5 ∧
      (stateAt 15 0 15 [5, 9]).pc = 15 := by decide

theorem witness_Add_own_opcode :
    (stateAt 2 4 2 [3, 2]).run = .running ∧ (stateAt 2 4 2 [3, 2]).memRead (stateAt 2 4 2 [3, 2]).pc.toNat = 3 ∧
      (stateAt 2 4 2 [3, 2]).memRead ((stateAt 2 4 2 [3, 2]).pc.toNat + 1) = (stateAt 2 4 2 [3, 2]).pc := by decide
theorem witness_Add_own_operand :
    (stateAt 2 4 2 [3, 3]).run = .running ∧ (stateAt 2 4 2 [3, 3]).memRead (stateAt 2 4 2 [3, 3]).pc.toNat = 3 ∧
      (stateAt 2 4 2 [3, 3]).memRead ((stateAt 2 4 2 [3, 3]).pc.toNat + 1) = (stateAt 2 4 2 [3, 3]).pc + 1 := by decide
theorem witness_Sub_own_opcode :
    (stateAt 2 4 2 [4, 2]).run = .running ∧ (stateAt 2 4 2 [4, 2]).memRead (stateAt 2 4 2 [4, 2]).pc.toNat = 4 ∧
      (stateAt 2 4 2 [4, 2]).memRead ((stateAt 2 4 2 [4, 2]).pc.toNat + 1) = (stateAt 2 4 2 [4, 2]).pc := by decide

theorem witness_Nop_opcode : (start 0).run = .running ∧ (start 0).memRead (start 0).pc.toNat = 0 := by decide
theorem witness_Nop_empty_memory : (stateAt 7 6 0 []).run = .running ∧ (stateAt 7 6 0 []).mem = State.reset.mem := by decide
theorem witness_Undefined_6 :
    (start 6).run = .running ∧ 6 ≤ ((start 6).memRead (start 6).pc.toNat).toNat ∧
      ((start 6).memRead (start 6).pc.toNat).toNat ≤ 14 := by decide
theorem witness_Undefined_14 :
    (start 14).run = .running ∧ 6 ≤ ((start 14).memRead (start 14).pc.toNat).toNat ∧
      ((start 14).memRead (start 14).pc.toNat).toNat = 14 := by decide
theorem witness_Halt_opcode : (start 15).run = .running ∧ (start 15).memRead (start 15).pc.toNat = 15 := by decide
theorem witness_Halt_host_operation : haltedState.run = .halted ∧ HostOp.cycle ≠ .powerOn := by decide
theorem witness_HaltedProcessorIsInert : haltedState.run = .halted := rfl

theorem witness_Accumulator_writer : ∃ a : Nibble, Instr.add 3 = .load a ∨ Instr.add 3 = .ldi a ∨
    Instr.add 3 = .add a ∨ Instr.add 3 = .sub a := ⟨3, by simp⟩
theorem witness_Accumulator_changes :
    ∃ s t : State, exec (.load 3) s = .next t ∧ t.ac ≠ s.ac := ⟨start 0, _, rfl, by decide⟩
theorem witness_Accumulator_reader : ∃ a : Nibble, Instr.store 3 = .store a ∨ Instr.store 3 = .add a ∨
    Instr.store 3 = .sub a := ⟨3, by simp⟩
theorem witness_Accumulator_untouched : Instr.undefE ∈ [Instr.nop, .undef6, .undef7, .undef8, .undef9, .undefA, .undefB,
    .undefC, .undefD, .undefE, .halt] := by decide
theorem witness_Flags_unwritten : ∀ a, Instr.store 0 ≠ .load a ∧ Instr.store 0 ≠ .ldi a ∧ Instr.store 0 ≠ .add a ∧
    Instr.store 0 ≠ .sub a := fun _ => by simp
theorem witness_AccumulatorForms : Instr.sub 3 ∈ [Instr.load 3, .ldi 3, .add 3, .sub 3] := by decide
theorem witness_FormsWithoutResult_halt : Instr.halt ∈ [Instr.nop, .undef6, .undef7, .undef8, .undef9, .undefA, .undefB,
    .undefC, .undefD, .undefE, .halt] := by decide
theorem witness_Store_frame_cell : 15 % 16 ≠ operandAddress 14 := by decide

theorem witness_FlagsNeverAffectARun : sameButFlags (start 3) ((start 3).setFlags true false) ∧
    start 3 ≠ (start 3).setFlags true false := ⟨rfl, by decide⟩

/-- The start state with cell 0, which an ADD does not touch, changed. -/
def startElsewhere : State := (start 3).memWrite 0 7

theorem witness_CycleDependsOnTheCellsItAccesses :
    sameButMemory (start 3) startElsewhere ∧ start 3 ≠ startElsewhere ∧
      ∀ cell : Nibble, .fetch cell ∈ (start 3).accesses ∨ .read cell ∈ (start 3).accesses →
        (start 3).memRead cell.toNat = startElsewhere.memRead cell.toNat := ⟨rfl, by decide, by decide⟩
theorem witness_Accesses_running : (start 2).accesses = [.fetch 3, .fetch 4, .write 10] := by decide
theorem witness_Accesses_operand_only : (start 5).accesses = [.fetch 3, .fetch 4] := by decide
theorem witness_Accesses_read : (start 4).accesses = [.fetch 3, .fetch 4, .read 10] := by decide
theorem witness_Accesses_one_cell : (start 6).accesses = [.fetch 3] ∧ (start 0).accesses = [.fetch 3] := by decide
theorem witness_Accesses_halted : haltedState.run = .halted ∧ haltedState.accesses = [] := by decide

theorem witness_StoreIsSeen_next_opcode :
    (stateAt 2 15 2 [2, 4]).run = .running ∧ (stateAt 2 15 2 [2, 4]).memRead (stateAt 2 15 2 [2, 4]).pc.toNat = 2 ∧
      decodeCells [(stateAt 2 15 2 [2, 4]).ac, (stateAt 2 15 2 [2, 4]).memRead 5] = .ok (.halt, [0]) := ⟨rfl, by decide, rfl⟩

theorem emptyMemory_runsOn (k : Nat) (s u : State) (hm : s.mem = []) (hr : s.run = .running) (h : runsTo k s u) :
    u.mem = [] := by
  induction k generalizing s with
  | zero => rw [runsTo_zero.mp h, hm]
  | succ k ih =>
    have h0 : s.memRead s.pc.toNat = 0 := by rw [State.memRead_eq, hm, Memory.read_nil]
    have hs : step s = .next (s.afterFetches 1 0) := by
      rw [step_running hr, fetchDecode_noOperand (i := .nop) (by rw [h0]; rfl), h0]
      rfl
    exact ih (s.afterFetches 1 0) hm hr ((runsTo_succ hs).mp h)

theorem witness_EveryStateHasANextState_no_halt : State.reset.run = .running ∧
    ∀ (j : Nat) (u : State), runsTo j State.reset u → u.memRead u.pc.toNat ≠ 15 := by
  refine ⟨rfl, fun j u h => ?_⟩
  rw [State.memRead_eq, emptyMemory_runsOn j State.reset u rfl rfl h, Memory.read_nil]
  decide

theorem witness_BoundedRun_ends : ∃ t, runBounded 1 (start 15) = .next (.halted t) ∧ (start 15).run = .running :=
  ⟨_, rfl, rfl⟩
theorem witness_BoundedRun_cut_off : ∃ t, runBounded 1 (start 0) = .next (.outOfFuel t) := ⟨_, rfl⟩

theorem witness_StepKeepsInvariant_running : (start 15).inv := ⟨by decide, fun h => by cases h⟩
theorem witness_StepKeepsInvariant_halted : haltedState.inv := ⟨by decide, fun _ => by decide⟩

theorem witness_OnlyPowerOn : haltedState.run = .halted ∧
    hostOp .powerOn haltedState = .next (State.reset, .nothing) ∧ State.reset.run = .running := ⟨rfl, rfl, rfl⟩
theorem witness_HostOperations : haltedState.mem.wf ∧ haltedState.mem ≠ [] := by decide
theorem witness_HostOperations_stillRunning : (start 0).mem.wf ∧
    hostOp (.run 1) (start 0) = .next ((start 0).afterFetches 1 0, .stillRunning) := ⟨by decide, rfl⟩
theorem witness_HostRun_ends : hostOp (.run 1) (start 15) =
    .next (((start 15).afterFetches 1 15).setRun .halted, .nothing) := rfl
theorem test_host_reads_tell_the_flags_apart :
    hostOp (.readBit .z) ((start 0).setFlags false true) = .next ((start 0).setFlags false true, .bit false) ∧
      hostOp (.readBit .c) ((start 0).setFlags false true) = .next ((start 0).setFlags false true, .bit true) ∧
      hostOp (.readBit .halted) haltedState = .next (haltedState, .bit true) := ⟨rfl, rfl, rfl⟩
theorem test_host_decrement_wraps : ((start 0).clearReg .ac).decReg .ac = (start 0).writeReg .ac 15 := by decide
theorem witness_Instances : ([start 3, haltedState] : Instances)[1]? = some haltedState ∧ (0 : Nat) ≠ 1 := by decide

end Sys2Proof.Tests
end

section
/-! SUPPORT. Facts of the state family shared by the proofs: what the execute phase of an instruction can do, said once
(41_fsm_cycle.md R93), and what the fetches leave (R91, R92). -/

namespace Sys2Proof.Machine

/-! The opcode map and the fetches. -/

/-- Whether an opcode waits for an operand (30_encoding.md R52). -/
def takesOperand : OpcodeEntry → Bool
  | .noOperand _ => false
  | .withOperand _ => true

/-- The two-cell opcodes are 1 to 5 (30_encoding.md R52, R54). -/
theorem takesOperand_opcodeMap (op : Nibble) :
    takesOperand (opcodeMap op) = decide (1 ≤ op.toNat ∧ op.toNat ≤ 5) := by
  revert op
  decide

theorem not_range_of_opcodeMap_noOperand {op : Nibble} {i : Instr} (h : opcodeMap op = .noOperand i) :
    ¬ (1 ≤ op.toNat ∧ op.toNat ≤ 5) :=
  of_decide_eq_false (by rw [← takesOperand_opcodeMap, h]; rfl)

theorem range_of_opcodeMap_withOperand {op : Nibble} {mk : Nibble → Instr} (h : opcodeMap op = .withOperand mk) :
    1 ≤ op.toNat ∧ op.toNat ≤ 5 :=
  of_decide_eq_true (by rw [← takesOperand_opcodeMap, h]; rfl)

/-- The state in which an instruction executes: two fetches for opcodes 1 to 5, else one (41_fsm_cycle.md R92). -/
theorem fetchDecode_state (s : State) :
    (fetchDecode s).2 =
      if 1 ≤ (s.memRead s.pc.toNat).toNat ∧ (s.memRead s.pc.toNat).toNat ≤ 5
      then s.afterFetches 2 (s.memRead (s.pc.toNat + 1)) else s.afterFetches 1 (s.memRead s.pc.toNat) := by
  cases h : opcodeMap (s.memRead s.pc.toNat) with
  | noOperand i => rw [fetchDecode_noOperand h, if_neg (not_range_of_opcodeMap_noOperand h)]
  | withOperand mk => rw [fetchDecode_withOperand h, if_pos (range_of_opcodeMap_withOperand h)]

/-! Registers, flags and the accumulator. -/

theorem State.readReg_writeReg_toNat (s : State) (r q : Reg) (v : Nat) :
    ((s.writeReg r v).readReg q).toNat = if q = r then v % 16 else (s.readReg q).toNat := by
  rw [State.writeReg, State.readReg_setReg, apply_ite BitVec.toNat, toNat_mask4]

/-- `Z` for a value of any width (10_state.md R15). -/
theorem zeroFlag_eq (v : Nat) : zeroFlag v = decide (v % 16 = 0) :=
  decide_eq_decide.mpr (mask4_eq_mask4_iff v 0)

theorem accumulate_ac (s : State) (a : Nibble) (op : AluOp) :
    (s.accumulate a op).ac = (alu s.ac.toNat (s.addressedCell a).toNat op).result := rfl

theorem accumulate_c (s : State) (a : Nibble) (op : AluOp) :
    (s.accumulate a op).c = (alu s.ac.toNat (s.addressedCell a).toNat op).carry := rfl

theorem accumulate_z (s : State) (a : Nibble) (op : AluOp) :
    (s.accumulate a op).z = decide ((alu s.ac.toNat (s.addressedCell a).toNat op).result = 0) := zeroFlag_nibble _

theorem addressedCell_memWrite (s : State) (a : Nibble) (v : Nat) :
    (s.memWrite (operandAddress a) v).addressedCell a = mask4 v := by
  rw [State.addressedCell, State.memRead_memWrite, if_pos rfl]

/-- The unit on AC and an addressed cell, as a function of the two elements it reads. -/
def aluOn (op : AluOp) (a ac : Nibble) (m : Memory) : ArithmeticResult :=
  alu ac.toNat (m.read (operandAddress a)).toNat op

theorem accumulate_eq_aluOn (s : State) (a : Nibble) (op : AluOp) :
    s.accumulate a op = s.writeAccumulator (aluOn op a s.ac s.mem).result (aluOn op a s.ac s.mem).carry := rfl

/-! The execute phase: one equation for each instruction with an effect, then the four forms. -/

theorem exec_load (a : Nibble) (s : State) : exec (.load a) s = .next (s.writeAccumulator (s.addressedCell a) false) :=
  rfl
theorem exec_ldi (v : Nibble) (s : State) : exec (.ldi v) s = .next (s.writeAccumulator v false) := rfl
theorem exec_add (a : Nibble) (s : State) : exec (.add a) s = .next (s.accumulate a .add) := rfl
theorem exec_sub (a : Nibble) (s : State) : exec (.sub a) s = .next (s.accumulate a .subtract) := rfl
theorem exec_store (a : Nibble) (s : State) : exec (.store a) s = .next (s.memWrite (operandAddress a) s.ac.toNat) :=
  rfl
theorem exec_halt (s : State) : exec .halt s = .next (s.setRun .halted) := rfl

/-- The instruction is LOAD, LDI, ADD or SUB: the four that write AC (10_state.md R11). -/
def WritesAc (i : Instr) : Prop := ∃ a, i = .load a ∨ i = .ldi a ∨ i = .add a ∨ i = .sub a

/-- The instruction has the result of NOP: NOP itself and the undefined opcodes (44_control.md R130, R131). -/
def ActsAsNop (i : Instr) : Prop :=
  i ∈ [.nop, .undef6, .undef7, .undef8, .undef9, .undefA, .undefB, .undefC, .undefD, .undefE]

/-- The four things an execute phase can do. In each the effect takes what it needs from AC and memory: PC, IR, the
flags and the run state are no input of any instruction (10_state.md R12, R14, R17). -/
inductive ExecForm (i : Instr) : Prop where
  | accumulator (hi : WritesAc i) (value : Nibble → Memory → Nibble) (carry : Nibble → Memory → Bool)
      (h : ∀ s, exec i s = .next (s.writeAccumulator (value s.ac s.mem) (carry s.ac s.mem)))
  | store (a : Nibble) (hi : i = .store a)
      (h : ∀ s, exec i s = .next (s.memWrite (operandAddress a) s.ac.toNat))
  | nothing (hi : ActsAsNop i) (h : ∀ s, exec i s = .next s)
  | halt (hi : i = .halt) (h : ∀ s, exec i s = .next (s.setRun .halted))

/-- LOAD, LDI, ADD and SUB end in `writeAccumulator` of a value and a carry taken from AC and memory (R16). -/
theorem exec_of_writesAc {i : Instr} (hi : WritesAc i) :
    ∃ (value : Nibble → Memory → Nibble) (carry : Nibble → Memory → Bool),
      ∀ s, exec i s = .next (s.writeAccumulator (value s.ac s.mem) (carry s.ac s.mem)) := by
  obtain ⟨a, rfl | rfl | rfl | rfl⟩ := hi
  · exact ⟨fun _ m => m.read (operandAddress a), fun _ _ => false, exec_load a⟩
  · exact ⟨fun _ _ => a, fun _ _ => false, exec_ldi a⟩
  · exact ⟨fun ac m => (aluOn .add a ac m).result, fun ac m => (aluOn .add a ac m).carry,
      fun s => by rw [exec_add, accumulate_eq_aluOn]⟩
  · exact ⟨fun ac m => (aluOn .subtract a ac m).result, fun ac m => (aluOn .subtract a ac m).carry,
      fun s => by rw [exec_sub, accumulate_eq_aluOn]⟩

theorem execForm_of_writesAc {i : Instr} (hi : WritesAc i) : ExecForm i := by
  obtain ⟨value, carry, h⟩ := exec_of_writesAc hi
  exact .accumulator hi value carry h

theorem execForm_of_actsAsNop {i : Instr} (hi : ActsAsNop i) : ExecForm i := by
  refine .nothing hi fun s => ?_
  simp only [ActsAsNop, List.mem_cons, List.not_mem_nil, or_false] at hi
  rcases hi with rfl | rfl | rfl | rfl | rfl | rfl | rfl | rfl | rfl | rfl <;> rfl

/-- Every instruction's execute phase has one of the four forms (41_fsm_cycle.md R93). -/
theorem execForm (i : Instr) : ExecForm i := by
  cases i with
  | load a => exact execForm_of_writesAc ⟨a, by simp⟩
  | ldi v => exact execForm_of_writesAc ⟨v, by simp⟩
  | add a => exact execForm_of_writesAc ⟨a, by simp⟩
  | sub a => exact execForm_of_writesAc ⟨a, by simp⟩
  | store a => exact .store a rfl (exec_store a)
  | halt => exact .halt rfl exec_halt
  | _ => exact execForm_of_actsAsNop (by simp [ActsAsNop])

/-- Every execute phase answers, keeps PC and IR and takes neither as input (10_state.md R12, R14). -/
theorem exec_keeps_pc_ir (i : Instr) (s : State) : ∃ t, exec i s = .next t ∧ t.pc = s.pc ∧ t.ir = s.ir ∧
    ∀ p v, exec i { s with pc := p, ir := v } = .next { t with pc := p, ir := v } := by
  cases execForm i with
  | accumulator _ value carry h => exact ⟨_, h s, rfl, rfl, fun _ _ => h _⟩
  | store a _ h => exact ⟨_, h s, rfl, rfl, fun _ _ => h _⟩
  | nothing _ h => exact ⟨_, h s, rfl, rfl, fun _ _ => h _⟩
  | halt _ h => exact ⟨_, h s, rfl, rfl, fun _ _ => h _⟩

/-- After a cycle of a Running processor PC and IR are as the fetches left them (10_state.md R13, R14). -/
theorem step_running_keeps_fetched {s : State} (h : s.run = .running) :
    ∃ t, step s = .next t ∧ t.pc = (fetchDecode s).2.pc ∧ t.ir = (fetchDecode s).2.ir := by
  obtain ⟨t, ht, hpc, hir, -⟩ := exec_keeps_pc_ir (fetchDecode s).1 (fetchDecode s).2
  exact ⟨t, by rw [step_running h, ht], hpc, hir⟩

/-! States that differ in the flags alone. -/

theorem sameButFlags_iff {s s' : State} : sameButFlags s s' ↔ ∃ z c, s' = s.setFlags z c :=
  ⟨fun h => ⟨_, _, h⟩, by rintro ⟨z, c, rfl⟩; rfl⟩

/-- Fetch and decode neither read nor write the flags. -/
theorem fetchDecode_setFlags (s : State) (z c : Bool) :
    fetchDecode (s.setFlags z c) = ((fetchDecode s).1, (fetchDecode s).2.setFlags z c) := by
  cases h : opcodeMap (s.memRead s.pc.toNat) with
  | noOperand i => rw [fetchDecode_noOperand h]; exact fetchDecode_noOperand h
  | withOperand mk => rw [fetchDecode_withOperand h]; exact fetchDecode_withOperand h

/-- No execute phase reads a flag: it writes both from other data, or leaves both (10_state.md R16, R17). -/
theorem exec_sameButFlags (i : Instr) {s s' : State} (h : sameButFlags s s') :
    ∃ t t', exec i s = .next t ∧ exec i s' = .next t' ∧ sameButFlags t t' := by
  obtain ⟨z, c, rfl⟩ := sameButFlags_iff.mp h
  cases execForm i with
  | accumulator _ value carry h => exact ⟨_, _, h s, h _, rfl⟩
  | store a _ h => exact ⟨_, _, h s, h _, rfl⟩
  | nothing _ h => exact ⟨_, _, h s, h _, rfl⟩
  | halt _ h => exact ⟨_, _, h s, h _, rfl⟩

/-- One cycle keeps two states alike up to the flags. -/
theorem step_sameButFlags {s s' : State} (h : sameButFlags s s') :
    ∃ t t', step s = .next t ∧ step s' = .next t' ∧ sameButFlags t t' := by
  obtain ⟨z, c, rfl⟩ := sameButFlags_iff.mp h
  cases hrun : s.run with
  | halted => exact ⟨s, _, step_halted hrun, step_halted hrun, h⟩
  | running =>
    rw [step_running hrun, step_running (s := s.setFlags z c) hrun, fetchDecode_setFlags]
    exact exec_sameButFlags _ rfl

end Sys2Proof.Machine
end

section
/-! SUPPORT. The arithmetic unit in numbers (40_datapath_adders.md R79 to R83). -/

namespace Sys2Proof.Machine

theorem bitsToNat_lt (bits : List Bool) : bitsToNat bits < 2 ^ bits.length := by
  induction bits with
  | nil => exact Nat.one_pos
  | cons b bits ih =>
    have hb := b.toNat_le
    rw [bitsToNat, List.length_cons, Nat.pow_succ]
    omega

theorem length_rippleChain (stages : List (Bool × Bool)) (c : Bool) :
    (rippleChain stages c).1.length = stages.length := by
  induction stages generalizing c with
  | nil => rfl
  | cons p stages ih => rw [rippleChain_cons, List.length_cons, List.length_cons, ih]

/-- The chain adds: its sum bits and its last carry spell the sum of the two operands and the carry in (R79). -/
theorem bitsToNat_rippleChain (stages : List (Bool × Bool)) (c : Bool) :
    bitsToNat (rippleChain stages c).1 + 2 ^ stages.length * (rippleChain stages c).2.toNat =
      bitsToNat (stages.map Prod.fst) + bitsToNat (stages.map Prod.snd) + c.toNat := by
  induction stages generalizing c with
  | nil => simp [bitsToNat]
  | cons p stages ih =>
    obtain ⟨a, b⟩ := p
    have hstage := fullAdder_toNat a b c
    have hrest := ih (fullAdder a b c).carry
    simp only [rippleChain_cons, List.map_cons, List.length_cons, bitsToNat, Nat.pow_succ', Nat.mul_assoc]
    omega

/-- The second operand as the chain takes it: `b` for Add, `15 - b` for Subtract (R80, R81). -/
theorem bitsToNat_secondOperand (b : Nibble) (op : AluOp) :
    bitsToNat ((bitsOf b).map (evaluate .xor · (subBit op))) = if op = .add then b.toNat else 15 - b.toNat := by
  cases op <;> revert b <;> decide

/-- The bit pairs that the unit's four stages add (R78, R79). -/
def aluStages (a b : Nat) (op : AluOp) : List (Bool × Bool) :=
  (bitsOf (mask4 a)).zip ((bitsOf (mask4 b)).map (evaluate .xor · (subBit op)))

theorem alu_result (a b : Nat) (op : AluOp) :
    (alu a b op).result = mask4 (bitsToNat (rippleChain (aluStages a b op) (subBit op)).1) := rfl

theorem alu_carry (a b : Nat) (op : AluOp) :
    (alu a b op).carry = (rippleChain (aluStages a b op) (subBit op)).2 := rfl

/-- The unit in numbers: carry and result spell `a + b` for Add and `a + (15 - b) + 1` for Subtract (R80, R81). -/
theorem alu_toNat (a b : Nat) (op : AluOp) :
    (alu a b op).result.toNat + 16 * (alu a b op).carry.toNat =
      a % 16 + (if op = .add then b % 16 else 15 - b % 16) + (subBit op).toNat := by
  have hlen : (aluStages a b op).length = 4 := rfl
  have hfst : (aluStages a b op).map Prod.fst = bitsOf (mask4 a) := rfl
  have hsnd : (aluStages a b op).map Prod.snd = (bitsOf (mask4 b)).map (evaluate .xor · (subBit op)) := rfl
  have hadd := bitsToNat_rippleChain (aluStages a b op) (subBit op)
  have hlt : bitsToNat (rippleChain (aluStages a b op) (subBit op)).1 < 16 := by
    simpa [length_rippleChain, hlen] using bitsToNat_lt (rippleChain (aluStages a b op) (subBit op)).1
  rw [hfst, hsnd, hlen, bitsToNat_bitsOf, bitsToNat_secondOperand, toNat_mask4, toNat_mask4] at hadd
  rw [alu_result, alu_carry, toNat_mask4, Nat.mod_eq_of_lt hlt]
  exact hadd

/-- A carry above four result bits is set exactly when the number they spell is 16 or more. -/
theorem carry_iff_of_toNat {r n : Nat} {c : Bool} (h : r + 16 * c.toNat = n) (hr : r < 16) :
    c = true ↔ 16 ≤ n := by
  cases c <;> simp at h ⊢ <;> omega

theorem alu_carry_iff (a b : Nat) (op : AluOp) :
    (alu a b op).carry = true ↔ 16 ≤ a % 16 + (if op = .add then b % 16 else 15 - b % 16) + (subBit op).toNat :=
  carry_iff_of_toNat (alu_toNat a b op) (alu a b op).result.isLt

/-- The carry of ADD: the sum is 16 or more (R80). -/
theorem alu_add_carry_iff (a b : Nibble) : (alu a.toNat b.toNat .add).carry = true ↔ 16 ≤ a.toNat + b.toNat := by
  simp only [alu_carry_iff, subBit, if_true, Bool.toNat_false]
  omega

/-- The carry of SUB: there was no borrow (R81). -/
theorem alu_subtract_carry_iff (a b : Nibble) :
    (alu a.toNat b.toNat .subtract).carry = true ↔ b.toNat ≤ a.toNat := by
  simp only [alu_carry_iff, subBit, reduceCtorEq, if_false, Bool.toNat_true]
  omega

end Sys2Proof.Machine
end

section
/-! The statements of the state family, settled (10_state.md). -/

namespace Sys2Proof.Machine

/-- Settles O39: a cycle keeps `sameButFlags`, so by induction on the number of cycles a run does. -/
theorem flagsNeverAffectARun : Obligations.FlagsNeverAffectARun := by
  intro k
  induction k with
  | zero => exact fun s s' h => ⟨s, s', runsTo_zero.mpr rfl, runsTo_zero.mpr rfl, h⟩
  | succ k ih =>
    intro s s' h
    obtain ⟨u, u', hu, hu', hsame⟩ := step_sameButFlags h
    obtain ⟨t, t', ht, ht', hend⟩ := ih u u' hsame
    exact ⟨t, t', (runsTo_succ hu).mpr ht, (runsTo_succ hu').mpr ht', hend⟩

/-- Settles O22: a fetch by definition, an execute phase by `exec_keeps_pc_ir`, a cycle by the fetches it makes. -/
theorem irHoldsTheLastCellFetched : Obligations.IrHoldsTheLastCellFetched := by
  refine ⟨fun s => rfl, fun i s v => ?_, fun s hrun => ?_⟩
  · obtain ⟨t, ht, hpc, hir, hwith⟩ := exec_keeps_pc_ir i s
    exact ⟨t, ht, hir, hpc ▸ hwith s.pc v⟩
  · obtain ⟨t, ht, -, hir⟩ := step_running_keeps_fetched hrun
    refine ⟨t, ht, ?_⟩
    rw [hir, fetchDecode_state]
    split <;> rfl

/-- Settles O23: `fetch_eq` says what a fetch does to PC, `exec_keeps_pc_ir` that an execute phase does nothing to it. -/
theorem onlyFetchMovesPc : Obligations.OnlyFetchMovesPc := by
  refine ⟨fun s => ⟨rfl, ?_, fun hpc => ?_⟩, fun i s p => ?_⟩
  · rw [fetch_eq, State.afterFetches_pc, toNat_mask4]
  · rw [fetch_eq, State.afterFetches_pc, hpc]
    rfl
  · obtain ⟨t, ht, hpc, hir, hwith⟩ := exec_keeps_pc_ir i s
    exact ⟨t, ht, hpc, hir ▸ hwith p s.ir⟩

/-- Settles O24: a Halted processor stays as it is, a Running one ends the cycle with the PC its fetches left. -/
theorem cycleAdvancesPcByItsCells : Obligations.CycleAdvancesPcByItsCells := by
  intro s
  cases hrun : s.run with
  | halted => exact ⟨s, step_halted hrun, by rw [if_pos rfl]⟩
  | running =>
    obtain ⟨t, ht, hpc, -⟩ := step_running_keeps_fetched hrun
    refine ⟨t, ht, ?_⟩
    simp only [hpc, fetchDecode_state, reduceCtorEq, if_false]
    split <;> exact toNat_mask4 _

/-! 10_state.md R11: who reads and who writes AC. -/

/-- The unit on 0 and 1 answers something other than 0. -/
theorem accumulate_ac_ne_zero (a : Nibble) (op : AluOp) :
    ((State.reset.memWrite (operandAddress a) 1).accumulate a op).ac ≠ 0 := by
  rw [accumulate_ac, addressedCell_memWrite, State.memWrite_ac]
  cases op <;> decide

/-- Each of the four changes AC from reset, once the addressed cell holds 1. -/
theorem exists_ac_changed_of_writesAc {i : Instr} (hi : WritesAc i) :
    ∃ s t : State, exec i s = .next t ∧ t.ac ≠ s.ac := by
  obtain ⟨a, rfl | rfl | rfl | rfl⟩ := hi
  · refine ⟨State.reset.memWrite (operandAddress a) 1, _, exec_load a _, ?_⟩
    rw [State.writeAccumulator_ac, addressedCell_memWrite, State.memWrite_ac]
    decide
  · exact ⟨State.reset.setReg .ac (a + 1), _, exec_ldi a _, by simp⟩
  · exact ⟨_, _, exec_add a _, accumulate_ac_ne_zero a .add⟩
  · exact ⟨_, _, exec_sub a _, accumulate_ac_ne_zero a .subtract⟩

/-- An instruction that changes AC is one of the four. -/
theorem writesAc_of_ac_changed {i : Instr} {s t : State} (ht : exec i s = .next t) (hac : t.ac ≠ s.ac) : WritesAc i := by
  cases execForm i with
  | accumulator hi => exact hi
  | store a _ h => cases (h s).symm.trans ht; exact absurd rfl hac
  | nothing _ h => cases (h s).symm.trans ht; exact absurd rfl hac
  | halt _ h => cases (h s).symm.trans ht; exact absurd rfl hac

/-- From the empty memory ADD and SUB give AC back, so their Z tells AC 0 from AC 1. -/
theorem accumulate_reset_z_ne (a : Nibble) (op : AluOp) :
    (State.reset.accumulate a op).z ≠ ((State.reset.setReg .ac 1).accumulate a op).z := by
  have hcell (s : State) (h : s.mem = []) : s.addressedCell a = 0 := by
    rw [State.addressedCell, State.memRead_eq, h, Memory.read_nil]
  rw [accumulate_z, accumulate_z, hcell _ rfl, hcell _ rfl, State.setReg_ac_ac]
  cases op <;> decide

/-- The cell a STORE writes tells AC 0 from AC 1. -/
theorem store_reset_addressedCell_ne (a : Nibble) :
    (State.reset.memWrite (operandAddress a) 0).addressedCell a ≠
      (State.reset.memWrite (operandAddress a) 1).addressedCell a := by
  rw [addressedCell_memWrite, addressedCell_memWrite]
  decide

/-- Settles O34: writers by the form of the execute phase and a witness for each, readers by a visible difference. -/
theorem accumulatorReadersAndWriters : Obligations.AccumulatorReadersAndWriters := by
  refine ⟨fun i => ⟨fun ⟨s, t, ht, hac⟩ => writesAc_of_ac_changed ht hac, exists_ac_changed_of_writesAc⟩,
    fun a v s => ⟨rfl, rfl⟩, fun i hi v s => ?_, fun i hi => ?_, fun s v => ⟨rfl, rfl⟩⟩
  · cases execForm i with
    | accumulator hw =>
      obtain ⟨a, rfl | rfl | rfl | rfl⟩ := hw <;> simp at hi
    | store a hs => subst hs; simp at hi
    | nothing _ h => exact ⟨_, h s, h _⟩
    | halt _ h => exact ⟨_, h s, h _⟩
  · obtain ⟨a, rfl | rfl | rfl⟩ := hi
    · refine ⟨State.reset, 1, _, _, exec_store a _, exec_store a _, fun h => ?_⟩
      have hcell := congrArg (State.addressedCell · a) h
      exact store_reset_addressedCell_ne a hcell
    · refine ⟨State.reset, 1, _, _, exec_add a _, exec_add a _, fun h => ?_⟩
      have hz := congrArg State.z h
      exact accumulate_reset_z_ne a .add hz
    · refine ⟨State.reset, 1, _, _, exec_sub a _, exec_sub a _, fun h => ?_⟩
      have hz := congrArg State.z h
      exact accumulate_reset_z_ne a .subtract hz

/-- Settles O35: the four that write AC write the flags by `writeAccumulator`, with the unit's carry for ADD and SUB; the
other forms of an execute phase keep both. -/
theorem flagsAreWrittenAsTabulated : Obligations.FlagsAreWrittenAsTabulated := by
  refine ⟨fun s value carry => ?_, fun a s => ?_, fun v s => ?_, fun a s => ?_, fun a s => ?_, fun i hi s => ?_⟩
  · rw [State.updateFlags, zeroFlag_eq]
    rfl
  · exact ⟨_, exec_load a s, zeroFlag_nibble (s.memRead a.toNat), rfl⟩
  · exact ⟨_, exec_ldi v s, zeroFlag_nibble v, rfl⟩
  · refine ⟨_, exec_add a s, accumulate_z s a .add, accumulate_c s a .add, ?_⟩
    rw [accumulate_c]
    exact alu_add_carry_iff s.ac (s.addressedCell a)
  · refine ⟨_, exec_sub a s, accumulate_z s a .subtract, accumulate_c s a .subtract, ?_⟩
    rw [accumulate_c]
    exact alu_subtract_carry_iff s.ac (s.addressedCell a)
  · cases execForm i with
    | accumulator hw =>
      obtain ⟨a, hw⟩ := hw
      obtain ⟨hload, hldi, hadd, hsub⟩ := hi a
      simp [hload, hldi, hadd, hsub] at hw
    | store a _ h => exact ⟨_, h s, rfl, rfl⟩
    | nothing _ h => exact ⟨_, h s, rfl, rfl⟩
    | halt _ h => exact ⟨_, h s, rfl, rfl⟩

/-- Settles O36: the four are the accumulator form, which writes AC and the flags alone. -/
theorem accumulatorFormsKeepTheirFrame : Obligations.AccumulatorFormsKeepTheirFrame := by
  intro a i hi s
  obtain ⟨value, carry, h⟩ := exec_of_writesAc ⟨a, by simpa using hi⟩
  exact ⟨_, h s, rfl, rfl, rfl, fun _ => rfl⟩

/-- A launch leaves PC at the reset vector: a load and the host's writes change memory alone. -/
theorem launched_pc (bytes : List Nat) (writes : List (Nat × Nat)) : (launched bytes writes).pc = 0 := by
  refine List.foldlRecOn (motive := fun s : State => s.pc = 0) writes _ rfl fun s hs w _ => ?_
  rw [State.memWrite_pc, hs]

/-- Settles O47: the reset values by definition, the first fetch by `launched_pc`. -/
theorem resetLeavesEveryElementAtItsValue : Obligations.ResetLeavesEveryElementAtItsValue := by
  refine ⟨rfl, rfl, rfl, rfl, rfl, rfl, Memory.read_nil, fun bytes writes => ?_⟩
  rw [fetch_eq, launched_pc]
  rfl

/-- Settles O49: increment, decrement and clear are writes, and a write is one `setReg` of a masked value. -/
theorem registerPrimitivesCountModulo16 : Obligations.RegisterPrimitivesCountModulo16 := by
  intro s r q v
  have hsame (w : Nat) : ((s.writeReg r w).readReg r).toNat = w % 16 := by
    rw [State.readReg_writeReg_toNat, if_pos rfl]
  exact ⟨State.readReg_writeReg_toNat s r q v, State.setReg_mem .., State.setReg_z .., State.setReg_c ..,
    State.setReg_run .., rfl, rfl, rfl, hsame _, hsame _, hsame 0, rfl, rfl⟩

end Sys2Proof.Machine
end

section
/-! SUPPORT. Facts of memory shared by the proofs: addresses modulo 16 and the canonical form (20_memory.md). -/

namespace Sys2Proof.Machine

/-! Addresses count modulo 16 (20_memory.md R31). -/

/-- A write, too, takes its address and its value modulo 16 (R31, R33). -/
theorem State.memWrite_mod (s : State) (x v : Nat) : s.memWrite (x % 16) (v % 16) = s.memWrite x v := by
  simp only [State.memWrite, Memory.write_eq, Nat.mod_mod, mask4_mod]

/-- Counting on from an address taken modulo 16 reads the cell that counting on without it does. -/
theorem State.memRead_mask4_add (s : State) (x n : Nat) : s.memRead ((mask4 x).toNat + n) = s.memRead (x + n) := by
  rw [← State.memRead_mod, toNat_mask4, Nat.mod_add_mod, State.memRead_mod]

theorem mask4_toNat_add_one (p : Nibble) : mask4 (p.toNat + 1) = p + 1 := by
  apply BitVec.eq_of_toNat_eq
  simp

/-- The cell after `p`, named as a Nibble and as a number. -/
theorem State.memRead_add_one (s : State) (p : Nibble) : s.memRead (p + 1).toNat = s.memRead (p.toNat + 1) := by
  rw [← mask4_toNat_add_one]
  exact s.memRead_mask4_add (p.toNat + 1) 0

/-- Every operand is the address of one of the 16 cells (30_encoding.md R53). -/
theorem operandAddress_mod (a : Nibble) : operandAddress a % 16 = operandAddress a := Nat.mod_eq_of_lt a.isLt

/-- A write through an operand changes the cell the operand names, and no other (R33). -/
theorem memRead_memWrite_operandAddress (s : State) (a cell : Nibble) (v : Nat) :
    (s.memWrite (operandAddress a) v).memRead cell.toNat = if cell = a then mask4 v else s.memRead cell.toNat := by
  have hsame : cell.toNat % 16 = operandAddress a % 16 ↔ cell = a := by
    rw [Nat.mod_eq_of_lt cell.isLt, operandAddress_mod]
    exact BitVec.toNat_inj
  simp only [State.memRead_memWrite, hsame]

/-! The canonical form of memory (log 1). -/

/-- A byte that is not the unlisted one is found in the list. -/
theorem Memory.mem_of_lookupByte {m : Memory} {k : Nat} {b : BitVec 8} (h : m.lookupByte k = b)
    (hb : b ≠ Config.unlistedByte) : (k, b) ∈ m := by
  induction m with
  | nil => exact absurd h.symm hb
  | cons x m ih =>
    obtain ⟨a, y⟩ := x
    by_cases hak : a = k
    · simp_all [Memory.lookupByte]
    · exact List.mem_cons_of_mem _ (ih (by simpa [Memory.lookupByte, hak] using h))

/-- Where addresses rise strictly, a listed byte is the one found at its address. -/
theorem Memory.lookupByte_of_mem {m : Memory} {k : Nat} {b : BitVec 8}
    (hm : m.Pairwise (fun x y => x.1 < y.1)) (h : (k, b) ∈ m) : m.lookupByte k = b := by
  induction m with
  | nil => cases h
  | cons x m ih =>
    obtain ⟨hx, hm⟩ := List.pairwise_cons.mp hm
    rcases List.mem_cons.mp h with rfl | h
    · simp [Memory.lookupByte]
    · simpa [Memory.lookupByte, (hx _ h).ne] using ih hm h

/-- A byte below 16 is a Nibble in the low half. -/
theorem setWidth_nibble_byte {b : BitVec 8} (hb : b.toNat < 16) : (b.setWidth 4).setWidth 8 = b := by
  apply BitVec.eq_of_toNat_eq
  simp only [BitVec.toNat_setWidth]
  omega

theorem Memory.lookupByte_lt {m : Memory} (hm : m.wf) (k : Nat) : (m.lookupByte k).toNat < 16 := by
  by_cases h : m.lookupByte k = Config.unlistedByte
  · rw [h]
    decide
  · obtain ⟨-, hlt, -⟩ := hm.2 _ (Memory.mem_of_lookupByte rfl h)
    exact hlt

theorem Memory.lookupByte_eq_read {m : Memory} (hm : m.wf) {k : Nat} (hk : k < 16) :
    m.lookupByte k = (m.read k).setWidth 8 := by
  rw [Memory.read, Nat.mod_eq_of_lt hk]
  exact (setWidth_nibble_byte (Memory.lookupByte_lt hm k)).symm

/-- What a canonical memory lists: the cells that do not read 0, with what they read. -/
theorem Memory.mem_iff_read {m : Memory} (hm : m.wf) (k : Nat) (b : BitVec 8) :
    (k, b) ∈ m ↔ k < 16 ∧ b ≠ Config.unlistedByte ∧ b = (m.read k).setWidth 8 := by
  constructor
  · intro h
    obtain ⟨hk, -, hne⟩ := hm.2 _ h
    exact ⟨hk, hne, by rw [← Memory.lookupByte_eq_read hm hk, Memory.lookupByte_of_mem hm.1 h]⟩
  · rintro ⟨hk, hne, hb⟩
    exact Memory.mem_of_lookupByte ((Memory.lookupByte_eq_read hm hk).trans hb.symm) hne

theorem Memory.nodup_of_wf {m : Memory} (hm : m.wf) : m.Nodup :=
  hm.1.imp fun hlt heq => hlt.ne (congrArg Prod.fst heq)

/-- A canonical memory is determined by what its cells read: the cells listed are the same, in the same order. -/
theorem Memory.eq_of_read_eq {m n : Memory} (hm : m.wf) (hn : n.wf) (h : ∀ k, k < 16 → m.read k = n.read k) :
    m = n := by
  have hmem (x : Host.Cell) : x ∈ m ↔ x ∈ n := by
    obtain ⟨k, b⟩ := x
    rw [Memory.mem_iff_read hm, Memory.mem_iff_read hn]
    exact and_congr_right fun hk => by rw [h k hk]
  have hperm : m.Perm n := (List.perm_ext_iff_of_nodup (Memory.nodup_of_wf hm) (Memory.nodup_of_wf hn)).mpr hmem
  exact hperm.eq_of_pairwise (fun _ _ _ _ hab hba => absurd hba hab.asymm) hm.1 hn.1

end Sys2Proof.Machine
end

section
/-! SUPPORT. The instruction that a cycle fetches, as the two cells at PC spell it (30_encoding.md R51 to R53,
41_fsm_cycle.md R92), and the accesses it makes (R101). -/

namespace Sys2Proof.Machine

/-- The instruction that an opcode cell and the cell after it spell; only opcodes 1 to 5 use the second cell. -/
def instrOfCells (op a : Nibble) : Instr :=
  match opcodeMap op with
  | .noOperand i => i
  | .withOperand mk => mk a

theorem opcode_instrOfCells (op a : Nibble) : (instrOfCells op a).opcode = op := by
  revert op a
  decide

theorem operand_instrOfCells (op a : Nibble) :
    (instrOfCells op a).operand = if takesOperand (opcodeMap op) then some a else none := by
  revert op a
  decide

theorem encode_instrOfCells (op a : Nibble) :
    encode (instrOfCells op a) = if takesOperand (opcodeMap op) then [op, a] else [op] := by
  rw [encode, opcode_instrOfCells, operand_instrOfCells]
  split <;> rfl

theorem instrOfCells_congr {op a b : Nibble} (h : takesOperand (opcodeMap op) = true → a = b) :
    instrOfCells op a = instrOfCells op b := by
  cases hop : opcodeMap op with
  | noOperand i => simp only [instrOfCells, hop]
  | withOperand mk => rw [h (by rw [hop]; rfl)]

/-- Two cells are always enough for the decoder, and it reads `instrOfCells` from them (R56). -/
theorem eq_instrOfCells_of_decodeCells {op a : Nibble} {i : Instr} {rest : List Nibble}
    (h : decodeCells [op, a] = .ok (i, rest)) : i = instrOfCells op a := by
  cases hop : opcodeMap op <;>
    simp only [decodeCells, instrOfCells, hop, Except.ok.injEq, Prod.mk.injEq] at h ⊢ <;> exact h.1.symm

/-- The instruction that the next cycle of a Running processor executes. -/
def State.nextInstr (s : State) : Instr := instrOfCells (s.memRead s.pc.toNat) (s.memRead (s.pc.toNat + 1))

/-- Fetch and decode bring the instruction at PC, move PC past its cells and leave the last of them in IR (R91, R92). -/
theorem fetchDecode_eq (s : State) :
    fetchDecode s =
      (s.nextInstr, s.afterFetches (encode s.nextInstr).length ((encode s.nextInstr).getLastD 0)) := by
  rw [State.nextInstr, encode_instrOfCells]
  cases h : opcodeMap (s.memRead s.pc.toNat) with
  | noOperand i =>
    rw [fetchDecode_noOperand h]
    simp [instrOfCells, h, takesOperand]
  | withOperand mk =>
    rw [fetchDecode_withOperand h]
    simp [instrOfCells, h, takesOperand]

theorem nextInstr_of_opcode {s : State} {n : Nat} (h : (s.memRead s.pc.toNat).toNat = n) :
    s.nextInstr = instrOfCells (mask4 n) (s.memRead (s.pc.toNat + 1)) := by
  rw [State.nextInstr, ← h, mask4_toNat]

/-- A cycle of a Running processor executes the instruction at PC in the state its fetches leave (R94). -/
theorem step_running_eq {s : State} (h : s.run = .running) :
    step s = exec s.nextInstr (s.afterFetches (encode s.nextInstr).length ((encode s.nextInstr).getLastD 0)) := by
  rw [step_running h, fetchDecode_eq]

/-- As `step_running_eq`, with the instruction as the decoder reads it from the two cells at PC. -/
theorem step_of_decodeCells {s : State} (hrun : s.run = .running) {i : Instr} {rest : List Nibble}
    (h : decodeCells [s.memRead s.pc.toNat, s.memRead (s.pc.toNat + 1)] = .ok (i, rest)) :
    step s = exec i (s.afterFetches (encode i).length ((encode i).getLastD 0)) := by
  rw [step_running_eq hrun, State.nextInstr, eq_instrOfCells_of_decodeCells h]

/-- Every state has a next state (R99). -/
theorem exists_step_eq_next (s : State) : ∃ t, step s = .next t := by
  cases hrun : s.run with
  | halted => exact ⟨s, step_halted hrun⟩
  | running =>
    obtain ⟨t, ht, -, -⟩ := step_running_keeps_fetched hrun
    exact ⟨t, ht⟩

/-! A cycle of STORE (42_data_transfer.md R111). -/

/-- The state that STORE @a leaves, from the state its cycle starts in. -/
def State.afterStore (s : State) (a : Nibble) : State :=
  (s.afterFetches 2 a).memWrite (operandAddress a) s.ac.toNat

theorem step_store {s : State} {a : Nibble} (hrun : s.run = .running) (h : s.nextInstr = .store a) :
    step s = .next (s.afterStore a) := by
  rw [step_running_eq hrun, h]
  exact exec_store a _

theorem State.afterStore_memRead (s : State) (a : Nibble) (x : Nat) :
    (s.afterStore a).memRead x = if x % 16 = operandAddress a then s.ac else s.memRead x := by
  rw [State.afterStore, State.memRead_memWrite, operandAddress_mod, mask4_toNat, State.afterFetches_memRead]

theorem State.afterStore_pc (s : State) (a : Nibble) : (s.afterStore a).pc = mask4 (s.pc.toNat + 2) := rfl

/-- The next cycle's fetches go on from two cells further. -/
theorem State.afterStore_afterFetches (s : State) (a : Nibble) (n : Nat) (v : Nibble) :
    (s.afterStore a).afterFetches n v = { s.afterStore a with pc := mask4 (s.pc.toNat + 2 + n), ir := v } := by
  rw [State.afterFetches, State.afterStore_pc, toNat_mask4, ← mask4_mod, Nat.mod_add_mod, mask4_mod]

/-! The accesses of a cycle (41_fsm_cycle.md R101). -/

theorem accesses_halted {s : State} (h : s.run = .halted) : s.accesses = [] := by
  simp only [State.accesses, h]

theorem accesses_running {s : State} (h : s.run = .running) :
    s.accesses = fetchAccesses s.pc s.nextInstr ++ dataAccess s.nextInstr := by
  simp only [State.accesses, h, fetchDecode_eq]

/-- The opcode fetch, and the operand fetch where there is an operand. -/
theorem fetchAccesses_eq (p : Nibble) (i : Instr) :
    fetchAccesses p i = .fetch p :: i.operand.toList.map fun _ => .fetch (p + 1) := by
  cases h : i.operand <;> simp [fetchAccesses, encode, h, List.range_succ, mask4_toNat_add_one]

/-- Only STORE writes a cell, the one it names. -/
theorem write_mem_dataAccess (i : Instr) (cell : Nibble) : .write cell ∈ dataAccess i ↔ i = .store cell := by
  cases i <;> simp [dataAccess, eq_comm]

theorem dataAccess_of_operand_none {i : Instr} (h : i.operand = none) : dataAccess i = [] := by
  revert h
  cases i <;> simp [Instr.operand, dataAccess]

theorem write_mem_accesses {s : State} (h : s.run = .running) (cell : Nibble) :
    .write cell ∈ s.accesses ↔ .write cell ∈ dataAccess s.nextInstr := by
  simp [accesses_running h, fetchAccesses_eq]

end Sys2Proof.Machine
end

section
/-! SUPPORT. States that differ in memory alone: what a cycle takes from memory are the cells it fetches and reads
(20_memory.md R42). -/

namespace Sys2Proof.Machine

theorem sameButMemory_iff {s s' : State} : sameButMemory s s' ↔ ∃ m, s' = { s with mem := m } :=
  ⟨fun h => ⟨_, h⟩, by rintro ⟨m, rfl⟩; rfl⟩

theorem sameButMemory_afterFetches {s s' : State} (h : sameButMemory s s') (n : Nat) (v : Nibble) :
    sameButMemory (s.afterFetches n v) (s'.afterFetches n v) := by
  obtain ⟨m, rfl⟩ := sameButMemory_iff.mp h
  rfl

/-- The cells that the next cycle fetches decide its instruction. -/
theorem nextInstr_eq_of_sameButMemory {s s' : State} (h : sameButMemory s s')
    (hfetch : ∀ cell, .fetch cell ∈ fetchAccesses s.pc s.nextInstr →
      s.memRead cell.toNat = s'.memRead cell.toNat) : s'.nextInstr = s.nextInstr := by
  have hpc : s'.pc = s.pc := by rw [h]
  have hop : s.memRead s.pc.toNat = s'.memRead s.pc.toNat := hfetch _ (by simp [fetchAccesses_eq])
  rw [State.nextInstr, State.nextInstr, hpc, ← hop]
  refine instrOfCells_congr fun htakes => ?_
  have hnext := hfetch (s.pc + 1) (by
    rw [fetchAccesses_eq, State.nextInstr, operand_instrOfCells, if_pos htakes]
    simp)
  rw [State.memRead_add_one, State.memRead_add_one] at hnext
  exact hnext.symm

/-- LOAD, ADD and SUB take from memory the cell they read, LDI none: where these agree, AC and the flags end alike. -/
theorem exec_of_writesAc_of_sameButMemory {i : Instr} (hi : WritesAc i) {s s' : State} (h : sameButMemory s s')
    (hread : ∀ cell, .read cell ∈ dataAccess i → s.memRead cell.toNat = s'.memRead cell.toNat) :
    ∃ v carry, exec i s = .next (s.writeAccumulator v carry) ∧ exec i s' = .next (s'.writeAccumulator v carry) := by
  have hac : s'.ac = s.ac := by rw [h]
  have hcell {a : Nibble} (ha : .read a ∈ dataAccess i) : s'.addressedCell a = s.addressedCell a := (hread a ha).symm
  obtain ⟨a, rfl | rfl | rfl | rfl⟩ := hi
  · exact ⟨_, _, exec_load a s, by rw [exec_load, hcell (by simp [dataAccess])]⟩
  · exact ⟨_, _, exec_ldi a s, exec_ldi a s'⟩
  · exact ⟨_, _, exec_add a s, by rw [exec_add, State.accumulate, hac, hcell (by simp [dataAccess])]⟩
  · exact ⟨_, _, exec_sub a s, by rw [exec_sub, State.accumulate, hac, hcell (by simp [dataAccess])]⟩

/-- What R101's list of accesses promises of two runs, from `s` to `t` and from `s'` to `t'`: the ends differ in memory
alone, a cell that is written ends alike, and every other cell ends as it began. -/
def AlikeAfterAccesses (accesses : List Access) (s s' t t' : State) : Prop :=
  sameButMemory t t' ∧
    ∀ cell : Nibble, if .write cell ∈ accesses then t.memRead cell.toNat = t'.memRead cell.toNat
      else t.memRead cell.toNat = s.memRead cell.toNat ∧ t'.memRead cell.toNat = s'.memRead cell.toNat

theorem alike_of_mem_eq {i : Instr} (hi : ∀ a, i ≠ .store a) {s s' t t' : State} (h : sameButMemory t t')
    (hmem : t.mem = s.mem) (hmem' : t'.mem = s'.mem) : AlikeAfterAccesses (dataAccess i) s s' t t' := by
  refine ⟨h, fun cell => ?_⟩
  rw [if_neg (mt (write_mem_dataAccess i cell).mp (hi cell))]
  simp only [State.memRead_eq, hmem, hmem', and_self]

/-- A STORE from the same AC leaves the cell it writes alike and every other as it was (R33). -/
theorem alike_of_store (a : Nibble) {s s' : State} (h : sameButMemory s s') :
    AlikeAfterAccesses (dataAccess (.store a)) s s' (s.memWrite (operandAddress a) s.ac.toNat)
      (s'.memWrite (operandAddress a) s'.ac.toNat) := by
  obtain ⟨m, rfl⟩ := sameButMemory_iff.mp h
  refine ⟨rfl, fun cell => ?_⟩
  rw [memRead_memWrite_operandAddress, memRead_memWrite_operandAddress]
  obtain rfl | hcell := eq_or_ne cell a
  · simp [write_mem_dataAccess]
  · simp [write_mem_dataAccess, hcell, hcell.symm]

/-- An execute phase depends on the cell it reads and on no other, and changes the cell it writes and no other. -/
theorem exec_sameButMemory (i : Instr) {s s' : State} (h : sameButMemory s s')
    (hread : ∀ cell, .read cell ∈ dataAccess i → s.memRead cell.toNat = s'.memRead cell.toNat) :
    ∃ t t', exec i s = .next t ∧ exec i s' = .next t' ∧ AlikeAfterAccesses (dataAccess i) s s' t t' := by
  cases execForm i with
  | accumulator hi _ _ _ =>
    obtain ⟨v, carry, hs, hs'⟩ := exec_of_writesAc_of_sameButMemory hi h hread
    obtain ⟨m, rfl⟩ := sameButMemory_iff.mp h
    exact ⟨_, _, hs, hs', alike_of_mem_eq (by rintro a rfl; simp [WritesAc] at hi) rfl rfl rfl⟩
  | store a hi hexec =>
    subst hi
    exact ⟨_, _, hexec s, hexec s', alike_of_store a h⟩
  | nothing hi hexec =>
    exact ⟨_, _, hexec s, hexec s', alike_of_mem_eq (by rintro a rfl; simp [ActsAsNop] at hi) h rfl rfl⟩
  | halt hi hexec =>
    obtain ⟨m, rfl⟩ := sameButMemory_iff.mp h
    exact ⟨_, _, hexec s, hexec _, alike_of_mem_eq (by rintro a rfl; cases hi) rfl rfl rfl⟩

end Sys2Proof.Machine
end

section
/-! SUPPORT. Several processors side by side (20_memory.md R46). -/

namespace Sys2Proof.Machine

/-- A cycle of processor `k` applies the step at index `k` of the list (log 7). -/
theorem stepInstance_eq_modify {f : State → State} (hf : ∀ s, step s = .next (f s)) (k : Nat) (ps : Instances) :
    stepInstance k ps = .next (ps.modify k f) := by
  rw [List.modify_eq_set_getElem?, stepInstance]
  cases ps[k]? with
  | none => rfl
  | some s => simp [hf]

end Sys2Proof.Machine
end

section
/-! The statements of the memory family, settled (20_memory.md). -/

namespace Sys2Proof.Machine

/-- Settles O10: an access reduces its address and value, and a read after a write is `State.memRead_memWrite`. -/
theorem writeThenReadCountsModulo16 : Obligations.WriteThenReadCountsModulo16 := by
  intro s x v y
  refine ⟨⟨s.memWrite x v, rfl, ?_, rfl, State.memRead_memWrite s x v y⟩, rfl, (State.memRead_mod s y).symm⟩
  rw [hostOp, State.memWrite_mod]

/-- Settles O11: a canonical memory lists the cells that do not read 0, with what they read, in address order. -/
theorem canonicalMemoriesThatReadAlikeAreEqual : Obligations.CanonicalMemoriesThatReadAlikeAreEqual :=
  fun _ _ => Memory.eq_of_read_eq

/-- Settles O13: the cleared memory lists no cell. -/
theorem clearZeroesEveryCell : Obligations.ClearZeroesEveryCell :=
  fun s => ⟨s.clearMemory, rfl, rfl, Memory.read_nil⟩

/-- Settles O38: STORE is one memory write, and a read elsewhere does not see it. -/
theorem storeKeepsItsFrame : Obligations.StoreKeepsItsFrame := by
  refine fun a s => ⟨_, exec_store a s, rfl, rfl, rfl, rfl, rfl, rfl, fun x hx => ?_⟩
  rw [State.memRead_memWrite, operandAddress_mod, if_neg hx]

/-- Settles O40: opcodes 1 to 5 name the instruction and so its accesses; every other opcode takes no operand. -/
theorem cycleAccessesAreAsTabulated : Obligations.CycleAccessesAreAsTabulated := by
  refine ⟨fun s => accesses_halted, fun s hrun => ?_⟩
  rw [accesses_running hrun, fetchAccesses_eq]
  refine ⟨?_, fun h => ?_, fun h => ?_, fun h => ?_⟩
  · rintro (h | h | h) <;> rw [nextInstr_of_opcode h] <;> rfl
  · rw [nextInstr_of_opcode h]
    rfl
  · rw [nextInstr_of_opcode h]
    rfl
  · have hnone : s.nextInstr.operand = none := by
      rw [State.nextInstr, operand_instrOfCells, takesOperand_opcodeMap, if_neg]
      simp only [decide_eq_true_eq]
      omega
    rw [dataAccess_of_operand_none hnone, hnone]
    rfl

/-- Settles O41: the fetched cells fix the instruction, and its execute phase is `exec_sameButMemory`. -/
theorem cycleDependsOnTheCellsItAccesses : Obligations.CycleDependsOnTheCellsItAccesses := by
  intro s s' h hcells
  have hrun' : s'.run = s.run := by rw [h]
  cases hrun : s.run with
  | halted =>
    refine ⟨s, s', step_halted hrun, step_halted (hrun'.trans hrun), h, fun cell => ?_⟩
    simp [accesses_halted hrun]
  | running =>
    have hinstr : s'.nextInstr = s.nextInstr := nextInstr_eq_of_sameButMemory h fun cell hcell =>
      hcells cell (.inl (by simp [accesses_running hrun, hcell]))
    obtain ⟨t, t', ht, ht', hsame, hmem⟩ := exec_sameButMemory s.nextInstr
      (sameButMemory_afterFetches h (encode s.nextInstr).length ((encode s.nextInstr).getLastD 0))
      fun cell hcell => hcells cell (.inr (by simp [accesses_running hrun, hcell]))
    refine ⟨t, t', by rw [step_running_eq hrun, ht], by rw [step_running_eq (hrun'.trans hrun), hinstr, ht'], hsame,
      fun cell => ?_⟩
    simp only [write_mem_accesses hrun]
    exact hmem cell

/-- Settles O42: the next cycle starts from memory as stored, two cells on, and decodes what it reads there. -/
theorem storeIsSeenByTheNextCycle : Obligations.StoreIsSeenByTheNextCycle := by
  intro s hrun hop a seen
  have hinstr : s.nextInstr = .store a := by
    rw [State.nextInstr, hop]
    rfl
  have hseen (n : Nat) : (s.afterStore a).memRead ((s.afterStore a).pc.toNat + n) = seen (s.pc.toNat + 2 + n) := by
    rw [State.afterStore_pc, State.memRead_mask4_add, State.afterStore_memRead]
  refine ⟨s.afterStore a, step_store hrun hinstr, fun i rest hdecode => ?_⟩
  rw [← hseen 0, ← hseen 1] at hdecode
  rw [← State.afterStore_afterFetches]
  exact step_of_decodeCells (s := s.afterStore a) hrun hdecode

/-- Settles O51: a cycle of processor `k` modifies index `k` of the list by the step, and modifications at two indices
commute. -/
theorem instancesDoNotInterfere : Obligations.InstancesDoNotInterfere := by
  choose f hf using exists_step_eq_next
  have hstep := stepInstance_eq_modify hf
  refine ⟨fun ps k s hs => ?_, fun ps j k hjk => ?_⟩
  · refine ⟨f s, ps.modify k f, hf s, hstep k ps, ?_, List.length_modify .., fun j hj => ?_⟩
    · rw [List.getElem?_modify_eq, hs]
      rfl
    · exact List.getElem?_modify_ne _ _ hj.symm
  · refine ⟨_, _, _, hstep j ps, hstep k ps, hstep k _, ?_⟩
    rw [hstep, List.modify_modify_ne _ _ _ hjk]

end Sys2Proof.Machine
end

section
/-! SUPPORT. What the decoder reads from a list of cells, through the opcode map (30_encoding.md R50 to R54). -/

namespace Sys2Proof.Machine

/-- An opcode without operand is an instruction of one cell. -/
theorem decodeCells_noOperand {op : Nibble} {i : Instr} (h : opcodeMap op = .noOperand i) (rest : List Nibble) :
    decodeCells (op :: rest) = .ok (i, rest) := by
  simp only [decodeCells, h]

/-- An opcode with operand takes the next cell, whatever its value (R53, R56). -/
theorem decodeCells_withOperand {op : Nibble} {mk : Nibble → Instr} (h : opcodeMap op = .withOperand mk) (a : Nibble)
    (rest : List Nibble) : decodeCells (op :: a :: rest) = .ok (mk a, rest) := by
  simp only [decodeCells, h]

/-- Two cells always spell an instruction; the opcode alone says whether it takes the second (R52, R56). -/
theorem decodeCells_two_cells (op a : Nibble) (rest : List Nibble) :
    decodeCells (op :: a :: rest) =
      .ok (instrOfCells op a, if takesOperand (opcodeMap op) then rest else a :: rest) := by
  cases h : opcodeMap op with
  | noOperand i => rw [decodeCells_noOperand h, instrOfCells, h]; rfl
  | withOperand mk => rw [decodeCells_withOperand h, instrOfCells, h]; rfl

/-- The opcode map takes the opcode of every instruction back to it. -/
theorem opcodeMap_opcode (i : Instr) : Laws.OpcodeCell.Statement i := by
  cases i with
  | nop => exact Laws.OpcodeCell.nop
  | load a => exact Laws.OpcodeCell.load a
  | store a => exact Laws.OpcodeCell.store a
  | add a => exact Laws.OpcodeCell.add a
  | sub a => exact Laws.OpcodeCell.sub a
  | ldi v => exact Laws.OpcodeCell.ldi v
  | undef6 => exact Laws.OpcodeCell.undef6
  | undef7 => exact Laws.OpcodeCell.undef7
  | undef8 => exact Laws.OpcodeCell.undef8
  | undef9 => exact Laws.OpcodeCell.undef9
  | undefA => exact Laws.OpcodeCell.undefA
  | undefB => exact Laws.OpcodeCell.undefB
  | undefC => exact Laws.OpcodeCell.undefC
  | undefD => exact Laws.OpcodeCell.undefD
  | undefE => exact Laws.OpcodeCell.undefE
  | halt => exact Laws.OpcodeCell.halt

theorem opcodeMap_of_operand_none {i : Instr} (h : i.operand = none) : opcodeMap i.opcode = .noOperand i := by
  simpa only [Laws.OpcodeCell.Statement, h] using opcodeMap_opcode i

theorem opcodeMap_of_operand_some {i : Instr} {a : Nibble} (h : i.operand = some a) :
    ∃ mk, opcodeMap i.opcode = .withOperand mk ∧ mk a = i := by
  simpa only [Laws.OpcodeCell.Statement, h] using opcodeMap_opcode i

/-- An instruction with an opcode from 6 to 14 executes as NOP does: no other form of an execute phase has such an
opcode (R55, 44_control.md R131). -/
theorem exec_eq_exec_nop_of_opcode {i : Instr} (hop : 6 ≤ i.opcode.toNat ∧ i.opcode.toNat ≤ 14) (s : State) :
    exec i s = exec .nop s := by
  cases execForm i with
  | accumulator hi => obtain ⟨a, rfl | rfl | rfl | rfl⟩ := hi <;> simp [Instr.opcode] at hop
  | store a hi => subst hi; simp [Instr.opcode] at hop
  | nothing _ h => exact h s
  | halt hi => subst hi; simp [Instr.opcode] at hop

end Sys2Proof.Machine
end

section
/-! SUPPORT. The cycle of the plain-arithmetic machine, one equation for each row of the opcode map
(30_encoding.md R54). -/

namespace Sys2Proof

theorem Arith.cycle_halted {m : Arith} (h : m.halted = true) : m.cycle = m := by
  rw [Arith.cycle, if_pos h]

section
variable {m : Arith} (hrun : m.halted = false)
include hrun

theorem Arith.cycle_load {a : Nat} (hop : m.cell m.pc = 1) (ha : m.cell (m.pc + 1) = a) :
    m.cycle = { m.fetched 2 a with ac := m.cell a, z := m.cell a == 0, c := false } := by
  simp [Arith.cycle, hrun, hop, ha]

theorem Arith.cycle_store {a : Nat} (hop : m.cell m.pc = 2) (ha : m.cell (m.pc + 1) = a) :
    m.cycle = { m.fetched 2 a with cells := m.cells.set a m.ac } := by
  simp [Arith.cycle, hrun, hop, ha]

theorem Arith.cycle_add {a : Nat} (hop : m.cell m.pc = 3) (ha : m.cell (m.pc + 1) = a) :
    m.cycle = { m.fetched 2 a with
      ac := (m.ac + m.cell a) % 16, z := (m.ac + m.cell a) % 16 == 0, c := decide (16 ≤ m.ac + m.cell a) } := by
  simp [Arith.cycle, hrun, hop, ha]

theorem Arith.cycle_sub {a : Nat} (hop : m.cell m.pc = 4) (ha : m.cell (m.pc + 1) = a) :
    m.cycle = { m.fetched 2 a with
      ac := (m.ac + 16 - m.cell a) % 16, z := m.ac == m.cell a, c := decide (m.cell a ≤ m.ac) } := by
  simp [Arith.cycle, hrun, hop, ha]

theorem Arith.cycle_ldi {a : Nat} (hop : m.cell m.pc = 5) (ha : m.cell (m.pc + 1) = a) :
    m.cycle = { m.fetched 2 a with ac := a, z := a == 0, c := false } := by
  simp [Arith.cycle, hrun, hop, ha]

theorem Arith.cycle_halt (hop : m.cell m.pc = 15) : m.cycle = { m.fetched 1 15 with halted := true } := by
  simp [Arith.cycle, hrun, hop]

/-- Every other opcode only moves on to the next cell (R55). -/
theorem Arith.cycle_other (hop : m.cell m.pc ∉ [1, 2, 3, 4, 5, 15]) : m.cycle = m.fetched 1 (m.cell m.pc) := by
  simp only [List.mem_cons, List.not_mem_nil, or_false, not_or] at hop
  rw [Arith.cycle, if_neg (by simp [hrun])]
  simp [hop]

end

end Sys2Proof
end

section
/-! SUPPORT. The machine's operations in numbers: what each does to `State.arith`. -/

namespace Sys2Proof.Machine

theorem alu_add_toNat (a b : Nibble) : (alu a.toNat b.toNat .add).result.toNat = (a.toNat + b.toNat) % 16 := by
  have h := alu_toNat a.toNat b.toNat .add
  simp only [if_true, subBit, Bool.toNat_false] at h
  omega

theorem alu_subtract_toNat (a b : Nibble) :
    (alu a.toNat b.toNat .subtract).result.toNat = (a.toNat + 16 - b.toNat) % 16 := by
  have h := alu_toNat a.toNat b.toNat .subtract
  simp only [reduceCtorEq, if_false, subBit, Bool.toNat_true] at h
  omega

theorem alu_add_carry (a b : Nibble) : (alu a.toNat b.toNat .add).carry = decide (16 ≤ a.toNat + b.toNat) := by
  rw [Bool.eq_iff_iff, alu_add_carry_iff, decide_eq_true_iff]

theorem alu_subtract_carry (a b : Nibble) :
    (alu a.toNat b.toNat .subtract).carry = decide (b.toNat ≤ a.toNat) := by
  rw [Bool.eq_iff_iff, alu_subtract_carry_iff, decide_eq_true_iff]

/-- A difference of Nibbles modulo 16 is 0 exactly when they are equal: Z of SUB (43_arithmetic.md R121). -/
theorem subtract_beq_zero (a b : Nibble) : ((a.toNat + 16 - b.toNat) % 16 == 0) = (a.toNat == b.toNat) := by
  have ha := a.isLt
  have hb := b.isLt
  rw [Bool.eq_iff_iff, beq_iff_eq, beq_iff_eq]
  omega

theorem arith_halted_of_running {s : State} (h : s.run = .running) : s.arith.halted = false := by
  rw [State.arith, h]
  rfl

theorem arith_halted_of_halted {s : State} (h : s.run = .halted) : s.arith.halted = true := by
  rw [State.arith, h]
  rfl

theorem arith_cell (s : State) (x : Nat) : s.arith.cell x = (s.memRead x).toNat := by
  have hx : x % 16 < (s.mem.dump.map BitVec.toNat).length := by
    rw [List.length_map, Memory.length_dump]
    exact Nat.mod_lt _ (by decide)
  rw [State.arith, Arith.cell, List.getD_eq_getElem _ _ hx, List.getElem_map, Memory.getElem_dump, Memory.read_mod,
    State.memRead_eq]

theorem arith_addressedCell (s : State) (a : Nibble) : s.arith.cell a.toNat = (s.addressedCell a).toNat := arith_cell ..

theorem arith_afterFetches (s : State) (n : Nat) (v : Nibble) :
    (s.afterFetches n v).arith = s.arith.fetched n v.toNat := by
  simp [State.arith, Arith.fetched]

theorem arith_writeAccumulator (s : State) (v : Nibble) (carry : Bool) :
    (s.writeAccumulator v carry).arith = { s.arith with ac := v.toNat, z := v.toNat == 0, c := carry } := by
  have hz : zeroFlag v.toNat = (v.toNat == 0) := by
    rw [zeroFlag_eq, Nat.mod_eq_of_lt v.isLt]
    rfl
  simp [State.arith, hz]

/-- ADD in numbers (43_arithmetic.md R120). -/
theorem arith_accumulate_add (s : State) (a : Nibble) :
    (s.accumulate a .add).arith = { s.arith with
      ac := (s.arith.ac + s.arith.cell a.toNat) % 16
      z := (s.arith.ac + s.arith.cell a.toNat) % 16 == 0
      c := decide (16 ≤ s.arith.ac + s.arith.cell a.toNat) } := by
  rw [State.accumulate, arith_writeAccumulator, alu_add_toNat, alu_add_carry, arith_addressedCell]
  rfl

/-- SUB in numbers: Z is the equality of AC and the cell, C that there was no borrow (43_arithmetic.md R121). -/
theorem arith_accumulate_subtract (s : State) (a : Nibble) :
    (s.accumulate a .subtract).arith = { s.arith with
      ac := (s.arith.ac + 16 - s.arith.cell a.toNat) % 16
      z := s.arith.ac == s.arith.cell a.toNat
      c := decide (s.arith.cell a.toNat ≤ s.arith.ac) } := by
  rw [State.accumulate, arith_writeAccumulator, alu_subtract_toNat, subtract_beq_zero, alu_subtract_carry,
    arith_addressedCell]
  rfl

theorem arith_setRun_halted (s : State) : (s.setRun .halted).arith = { s.arith with halted := true } := rfl

theorem Memory.dump_write (m : Memory) (addr v : Nat) : (m.write addr v).dump = m.dump.set (addr % 16) (mask4 v) := by
  refine List.ext_getElem (by simp) fun k hk _ => ?_
  have hk16 : k % 16 = k := Nat.mod_eq_of_lt (by simpa using hk)
  simp only [Memory.getElem_dump, List.getElem_set, Memory.read_write, hk16, eq_comm]

theorem arith_memWrite_operandAddress (s : State) (a v : Nibble) :
    (s.memWrite (operandAddress a) v.toNat).arith = { s.arith with cells := s.arith.cells.set a.toNat v.toNat } := by
  simp only [State.arith, State.memWrite_mem, Memory.dump_write, operandAddress_mod, List.map_set, mask4_toNat]
  rfl

end Sys2Proof.Machine
end

section
/-! SUPPORT. One cycle of the machine is one cycle of the plain-arithmetic machine (30_encoding.md R54,
41_fsm_cycle.md R94). -/

namespace Sys2Proof.Machine

theorem arith_opcode {s : State} {i : Instr} (hi : s.nextInstr = i) : s.arith.cell s.arith.pc = i.opcode.toNat := by
  rw [← hi, State.nextInstr, opcode_instrOfCells]
  exact arith_cell s s.pc.toNat

theorem arith_operand {s : State} {i : Instr} {a : Nibble} (hi : s.nextInstr = i) (ha : i.operand = some a) :
    s.arith.cell (s.arith.pc + 1) = a.toNat := by
  rw [← hi, State.nextInstr, operand_instrOfCells] at ha
  split at ha
  · cases ha
    exact arith_cell s (s.pc.toNat + 1)
  · cases ha

/-- A cycle from `s` ends where the plain-arithmetic machine's cycle from the numbers of `s` does. -/
def StepsAsArith (s : State) : Prop := ∃ t, step s = .next t ∧ t.arith = s.arith.cycle

/-- An execute phase that answers a state with the right numbers makes the cycle right. -/
theorem stepsAsArith_of_exec {s : State} {i : Instr} (hrun : s.run = .running) (hi : s.nextInstr = i) {t : State}
    (hexec : exec i (s.afterFetches (encode i).length ((encode i).getLastD 0)) = .next t)
    (ht : t.arith = s.arith.cycle) : StepsAsArith s :=
  ⟨t, by rw [step_running_eq hrun, hi, hexec], ht⟩

/-- An instruction of one cell whose execute phase does nothing. -/
theorem stepsAsArith_of_nothing {s : State} {i : Instr} (hrun : s.run = .running) (hi : s.nextInstr = i)
    (hexec : ∀ t, exec i t = .next t) (hnone : i.operand = none) (hop : i.opcode.toNat ∉ [1, 2, 3, 4, 5, 15]) :
    StepsAsArith s := by
  refine stepsAsArith_of_exec hrun hi (hexec _) ?_
  rw [← arith_opcode hi] at hop
  rw [Arith.cycle_other (arith_halted_of_running hrun) hop, arith_opcode hi, encode, hnone, arith_afterFetches]
  rfl

/-- In each case the opcode and operand cells select the plain machine's equation for the instruction, and the numbers
of the state after the execute phase are its right-hand side. -/
theorem stepsAsArith_of_running {s : State} (hrun : s.run = .running) : StepsAsArith s := by
  have hhalted := arith_halted_of_running hrun
  cases hi : s.nextInstr with
  | load a =>
    refine stepsAsArith_of_exec hrun hi (exec_load a _) ?_
    rw [Arith.cycle_load hhalted (arith_opcode hi) (arith_operand hi rfl), arith_writeAccumulator, arith_afterFetches,
      arith_addressedCell]
    rfl
  | store a =>
    refine stepsAsArith_of_exec hrun hi (exec_store a _) ?_
    rw [Arith.cycle_store hhalted (arith_opcode hi) (arith_operand hi rfl), arith_memWrite_operandAddress,
      arith_afterFetches]
    rfl
  | add a =>
    refine stepsAsArith_of_exec hrun hi (exec_add a _) ?_
    rw [Arith.cycle_add hhalted (arith_opcode hi) (arith_operand hi rfl), arith_accumulate_add, arith_afterFetches]
    rfl
  | sub a =>
    refine stepsAsArith_of_exec hrun hi (exec_sub a _) ?_
    rw [Arith.cycle_sub hhalted (arith_opcode hi) (arith_operand hi rfl), arith_accumulate_subtract,
      arith_afterFetches]
    rfl
  | ldi v =>
    refine stepsAsArith_of_exec hrun hi (exec_ldi v _) ?_
    rw [Arith.cycle_ldi hhalted (arith_opcode hi) (arith_operand hi rfl), arith_writeAccumulator, arith_afterFetches]
    rfl
  | halt =>
    refine stepsAsArith_of_exec hrun hi (exec_halt _) ?_
    rw [Arith.cycle_halt hhalted (arith_opcode hi), arith_setRun_halted, arith_afterFetches]
    rfl
  | _ => exact stepsAsArith_of_nothing hrun hi (fun _ => rfl) rfl (by decide)

/-- The step lemma of the refinement, from every state. -/
theorem stepsAsArith (s : State) : StepsAsArith s := by
  cases hrun : s.run with
  | running => exact stepsAsArith_of_running hrun
  | halted => exact ⟨s, step_halted hrun, (Arith.cycle_halted (arith_halted_of_halted hrun)).symm⟩

end Sys2Proof.Machine
end

section
/-! The statements of the encoding family, settled (30_encoding.md). -/

namespace Sys2Proof.Machine

/-- Settles O16: the opcode map takes each opcode back to its instruction, and the operand cell is read as encoded. -/
theorem decodeOfEncodeIsTheInstruction : Obligations.DecodeOfEncodeIsTheInstruction := by
  intro i rest
  rw [encode]
  cases hoperand : i.operand with
  | none => exact decodeCells_noOperand (opcodeMap_of_operand_none hoperand) rest
  | some a =>
    obtain ⟨mk, hmap, hmk⟩ := opcodeMap_of_operand_some hoperand
    exact hmk ▸ decodeCells_withOperand hmap a rest

/-- Settles O52: `stepsAsArith` is the step, and the induction is on the number of cycles. -/
theorem machineRunsAsPlainArithmetic : Obligations.MachineRunsAsPlainArithmetic := by
  intro k
  induction k with
  | zero => exact fun s => ⟨s, runsTo_zero.mpr rfl, rfl⟩
  | succ k ih =>
    intro s
    obtain ⟨u, hu, hcycle⟩ := stepsAsArith s
    obtain ⟨t, ht, hrest⟩ := ih u
    refine ⟨t, (runsTo_succ hu).mpr ht, ?_⟩
    rw [hrest, hcycle, Function.iterate_succ_apply]

/-- Settles O18: the instruction is the one the two cells spell; each execute phase answers, with NOP's result for
opcodes 6 to 14. -/
theorem everyCellValueIsAnInstruction : Obligations.EveryCellValueIsAnInstruction := by
  intro op a rest
  have hop := opcode_instrOfCells op a
  refine ⟨instrOfCells op a, hop, ?_, ?_, fun s => ?_, fun hrange s => ?_⟩
  · simp only [decodeCells_two_cells, takesOperand_opcodeMap, decide_eq_true_eq]
  · simp only [operand_instrOfCells, takesOperand_opcodeMap, decide_eq_true_eq]
  · obtain ⟨t, ht, -⟩ := exec_keeps_pc_ir (instrOfCells op a) s
    exact ⟨t, ht⟩
  · exact exec_eq_exec_nop_of_opcode (by rwa [hop]) s

/-- Settles O15: each opcode's entry in the map says whether the decoder takes the next cell. -/
theorem opcodeMapDecodesEveryOpcode : Obligations.OpcodeMapDecodesEveryOpcode := by
  intro a rest
  have hone {op : Nibble} {i : Instr} (h : opcodeMap op = .noOperand i) := decodeCells_noOperand h rest
  have htwo {op : Nibble} {mk : Nibble → Instr} (h : opcodeMap op = .withOperand mk) :=
    decodeCells_withOperand h a rest
  exact ⟨hone rfl, htwo rfl, htwo rfl, htwo rfl, htwo rfl, htwo rfl, hone rfl, hone rfl, hone rfl, hone rfl, hone rfl,
    hone rfl, hone rfl, hone rfl, hone rfl, hone rfl⟩

end Sys2Proof.Machine
end

section
/-! SUPPORT. The carries of the full adder (40_datapath_adders.md R76). -/

namespace Sys2Proof.Machine

theorem fullAdder_carry_eq_majority (a b c : Bool) :
    (fullAdder a b c).carry = ((a && b) || (a && c) || (b && c)) := by
  cases a <;> cases b <;> cases c <;> rfl

/-- The two half adders of a full adder never both carry: a first carry leaves the sum 0 to the second. -/
theorem halfAdder_carries_disjoint (a b c : Bool) :
    ((halfAdder a b).carry && (halfAdder (halfAdder a b).sum c).carry) = false := by
  cases a <;> cases b <;> rfl

end Sys2Proof.Machine
end

section
/-! SUPPORT. The unit's chain over the bits of two Nibbles, and its closed forms for operands of any width
(40_datapath_adders.md R77 to R83). -/

namespace Sys2Proof.Machine

/-- The Nibble that the chain adds to the first operand: `b` for Add, `15 - b` for Subtract, after masking (R79). -/
def secondOperand (b : Nat) (op : AluOp) : Nibble :=
  if op = .subtract then mask4 (15 - b % 16) else mask4 b

@[simp] theorem secondOperand_add (b : Nat) : secondOperand b .add = mask4 b := rfl

/-- Inverting the four bits of an operand is taking it from 15 (R81). -/
@[simp] theorem secondOperand_subtract (b : Nat) : secondOperand b .subtract = ~~~ mask4 b := by
  apply BitVec.eq_of_toNat_eq
  rw [secondOperand, if_pos rfl, toNat_mask4, BitVec.toNat_not, toNat_mask4]
  omega

theorem subBit_eq_decide (op : AluOp) : subBit op = decide (op = .subtract) := by
  cases op <;> rfl

theorem evaluate_xor_false (x : Bool) : evaluate .xor x false = x := Bool.bne_false x
theorem evaluate_xor_true (x : Bool) : evaluate .xor x true = !x := Bool.bne_true x

theorem bitsOf_not (v : Nibble) : bitsOf (~~~v) = (bitsOf v).map (!·) := by
  simp [bitsOf]

/-- The XOR gates of the unit turn the bits of `b` into those of the second operand (R79, R85). -/
theorem map_xor_subBit (b : Nat) (op : AluOp) :
    (bitsOf (mask4 b)).map (evaluate .xor · (subBit op)) = bitsOf (secondOperand b op) := by
  cases op with
  | add => simp only [subBit, evaluate_xor_false, List.map_id', secondOperand_add]
  | subtract => simp only [subBit, evaluate_xor_true, secondOperand_subtract, bitsOf_not]

theorem aluStages_eq_zip (a b : Nat) (op : AluOp) :
    aluStages a b op = (bitsOf (mask4 a)).zip (bitsOf (secondOperand b op)) := by
  rw [aluStages, map_xor_subBit]

/-- Four sum bits spell a Nibble, so masking the result loses nothing (R79). -/
theorem alu_result_toNat (a b : Nat) (op : AluOp) :
    (alu a b op).result.toNat = bitsToNat (rippleChain (aluStages a b op) (subBit op)).1 := by
  have hlen : (aluStages a b op).length = 4 := rfl
  have hlt := bitsToNat_lt (rippleChain (aluStages a b op) (subBit op)).1
  rw [length_rippleChain, hlen] at hlt
  rw [alu_result, toNat_mask4]
  exact Nat.mod_eq_of_lt hlt

/-- Zero is the test of the result alone, for both operations (R82). -/
theorem alu_zero (a b : Nat) (op : AluOp) : (alu a b op).zero = decide ((alu a b op).result = 0) := rfl

theorem alu_zero_iff (a b : Nat) (op : AluOp) : (alu a b op).zero = true ↔ (alu a b op).result = 0 := by
  rw [alu_zero, decide_eq_true_iff]

theorem alu_zero_toNat (a b : Nat) (op : AluOp) :
    (alu a b op).zero = decide ((alu a b op).result.toNat = 0) := by
  rw [alu_zero, decide_eq_decide, ← BitVec.toNat_inj]
  rfl

/-! R80 and R81 in Nibble arithmetic. -/

theorem alu_add_result (a b : Nibble) : (alu a.toNat b.toNat .add).result = a + b :=
  BitVec.eq_of_toNat_eq (by rw [alu_add_toNat, BitVec.toNat_add])

theorem alu_subtract_result (a b : Nibble) : (alu a.toNat b.toNat .subtract).result = a + ~~~b + 1 := by
  have hone : (1 : Nibble).toNat = 1 := rfl
  apply BitVec.eq_of_toNat_eq
  rw [alu_subtract_toNat, BitVec.toNat_add, BitVec.toNat_add, BitVec.toNat_not, hone]
  omega

/-! R83: the numbers of the unit for operands of any width. Masking reduces each to the lemma for Nibbles. -/

theorem alu_add_toNat_mod (a b : Nat) : (alu a b .add).result.toNat = (a % 16 + b % 16) % 16 := by
  rw [← alu_mask4, alu_add_toNat, toNat_mask4, toNat_mask4]

theorem alu_add_carry_mod (a b : Nat) : (alu a b .add).carry = decide (16 ≤ a % 16 + b % 16) := by
  rw [← alu_mask4, alu_add_carry, toNat_mask4, toNat_mask4]

theorem alu_subtract_toNat_mod (a b : Nat) :
    (alu a b .subtract).result.toNat = (a % 16 + 16 - b % 16) % 16 := by
  rw [← alu_mask4, alu_subtract_toNat, toNat_mask4, toNat_mask4]

theorem alu_subtract_carry_mod (a b : Nat) : (alu a b .subtract).carry = decide (b % 16 ≤ a % 16) := by
  rw [← alu_mask4, alu_subtract_carry, toNat_mask4, toNat_mask4]

theorem alu_add_zero_mod (a b : Nat) : (alu a b .add).zero = decide ((a % 16 + b % 16) % 16 = 0) := by
  rw [alu_zero_toNat, alu_add_toNat_mod]

theorem alu_subtract_toInt_mod (a b : Nat) :
    ((alu a b .subtract).result.toNat : Int) = (((a % 16 : Nat) : Int) - (b % 16 : Nat)) % 16 := by
  rw [alu_subtract_toNat_mod]
  omega

/-- A difference of Nibbles is 0 modulo 16 only when they are equal. -/
theorem alu_subtract_zero_mod (a b : Nat) : (alu a b .subtract).zero = decide (a % 16 = b % 16) := by
  rw [alu_zero_toNat, alu_subtract_toNat_mod, decide_eq_decide]
  omega

/-- Carry and result of Add spell the sum. -/
theorem alu_add_spells_sum (a b : Nat) :
    16 * (alu a b .add).carry.toNat + (alu a b .add).result.toNat = a % 16 + b % 16 := by
  have h := alu_toNat a b .add
  simp only [if_true, subBit, Bool.toNat_false] at h
  omega

/-- Result and borrow of Subtract spell the difference. -/
theorem alu_subtract_spells_difference (a b : Nat) :
    ((a % 16 : Nat) : Int) - (b % 16 : Nat) =
      ((alu a b .subtract).result.toNat : Int) - 16 * (1 - ((alu a b .subtract).carry.toNat : Int)) := by
  have h := alu_toNat a b .subtract
  simp only [reduceCtorEq, if_false, subBit, Bool.toNat_true] at h
  omega

end Sys2Proof.Machine
end

section
/-! SUPPORT. The adder netlists evaluate to the adders (40_datapath_adders.md R74, R75, R79). -/

namespace Sys2Proof.Machine

theorem eval_fullAdderNet_sum (env : Wire → Bool) (x y c : Net) :
    (fullAdderNet x y c).sum.eval env = (fullAdder (x.eval env) (y.eval env) (c.eval env)).sum := rfl

theorem eval_fullAdderNet_carry (env : Wire → Bool) (x y c : Net) :
    (fullAdderNet x y c).carry.eval env = (fullAdder (x.eval env) (y.eval env) (c.eval env)).carry := rfl

theorem rippleNet_cons (x y c : Net) (stages : List (Net × Net)) :
    rippleNet ((x, y) :: stages) c =
      ((fullAdderNet x y c).sum :: (rippleNet stages (fullAdderNet x y c).carry).1,
        (rippleNet stages (fullAdderNet x y c).carry).2) := rfl

/-- The values of the inputs of each stage. -/
def evalStages (env : Wire → Bool) (stages : List (Net × Net)) : List (Bool × Bool) :=
  stages.map fun p => (p.1.eval env, p.2.eval env)

theorem evalStages_cons (env : Wire → Bool) (x y : Net) (stages : List (Net × Net)) :
    evalStages env ((x, y) :: stages) = (x.eval env, y.eval env) :: evalStages env stages := rfl

theorem eval_rippleNet (env : Wire → Bool) (stages : List (Net × Net)) (c : Net) :
    ((rippleNet stages c).1.map (Net.eval env), (rippleNet stages c).2.eval env) =
      rippleChain (evalStages env stages) (c.eval env) := by
  induction stages generalizing c with
  | nil => rfl
  | cons p stages ih =>
    obtain ⟨x, y⟩ := p
    have hrest := ih (fullAdderNet x y c).carry
    rw [eval_fullAdderNet_carry] at hrest
    rw [rippleNet_cons, evalStages_cons, rippleChain_cons, ← hrest, ← eval_fullAdderNet_sum, List.map_cons]

/-- The stages of the unit's netlist. -/
def aluNetStages (op : AluOp) : List (Net × Net) :=
  (List.range 4).map fun i => (.wire (.a i), secondOperandNet op i)

theorem aluNet_eq (op : AluOp) : aluNet op = rippleNet (aluNetStages op) (.wire (.const (subBit op))) := rfl

theorem eval_secondOperandNet (a b : Nibble) (op : AluOp) (i : Nat) :
    (secondOperandNet op i).eval (wireValues a b) = evaluate .xor (b.getLsbD i) (subBit op) := by
  cases op with
  | add => exact (evaluate_xor_false _).symm
  | subtract => rfl

/-- The netlist's stages take the bits that the unit's stages add. -/
theorem evalStages_aluNetStages (a b : Nibble) (op : AluOp) :
    evalStages (wireValues a b) (aluNetStages op) = aluStages a.toNat b.toNat op := by
  rw [evalStages, aluNetStages, List.map_map, aluStages, mask4_toNat, mask4_toNat]
  simp [List.range_succ, bitsOf, eval_secondOperandNet, Net.eval, wireValues]

theorem eval_aluNet (a b : Nibble) (op : AluOp) :
    ((aluNet op).1.map (Net.eval (wireValues a b)), (aluNet op).2.eval (wireValues a b)) =
      rippleChain (aluStages a.toNat b.toNat op) (subBit op) := by
  rw [aluNet_eq, eval_rippleNet, evalStages_aluNetStages]
  rfl

end Sys2Proof.Machine
end

section
/-! The statements of the datapath family, settled (40_datapath_adders.md). -/

namespace Sys2Proof.Machine

/-- Settles O4: by induction on the stages, with the full adder's law at each. -/
theorem rippleChainAddsAtEveryWidth : Obligations.RippleChainAddsAtEveryWidth :=
  fun stages carryIn => ⟨length_rippleChain stages carryIn, bitsToNat_rippleChain stages carryIn⟩

/-- Settles O5: the unit's stages are the bits of the two masked operands, and the chain over four pairs is four full
adders. -/
theorem aluIsFourFullAddersInAChain : Obligations.AluIsFourFullAddersInAChain := by
  intro aIn bIn op a b f0 f1 f2 f3
  have hchain : rippleChain (aluStages aIn bIn op) (subBit op) = ([f0.sum, f1.sum, f2.sum, f3.sum], f3.carry) := by
    rw [aluStages_eq_zip, subBit_eq_decide]
    rfl
  refine ⟨?_, ?_, alu_zero aIn bIn op⟩
  · rw [alu_result_toNat, hchain]
    simp only [bitsToNat]
    omega
  · rw [alu_carry, hchain]

/-- Settles O6: `aluStages_eq_zip` gives the chain of each operation, `alu_toNat` its sum, carry and borrow. -/
theorem addAndSubtractUseOneChain : Obligations.AddAndSubtractUseOneChain := by
  intro a b addChain subChain sum diff
  have hadd : rippleChain (aluStages a.toNat b.toNat .add) (subBit .add) = addChain := by
    rw [aluStages_eq_zip, secondOperand_add, mask4_toNat, mask4_toNat]
    rfl
  have hsub : rippleChain (aluStages a.toNat b.toNat .subtract) (subBit .subtract) = subChain := by
    rw [aluStages_eq_zip, secondOperand_subtract, mask4_toNat, mask4_toNat]
    rfl
  refine ⟨?_, ?_, ?_, ?_, alu_add_result a b, alu_subtract_result a b, alu_subtract_carry_iff a b,
    alu_zero_iff a.toNat b.toNat⟩
  · rw [← hadd, ← alu_result_toNat]
  · rw [← hadd, ← alu_carry]
  · rw [← hsub, ← alu_result_toNat]
  · rw [← hsub, ← alu_carry]

/-- Settles O7: each clause is a number of the unit at any width. -/
theorem aluMeetsItsClosedForms : Obligations.AluMeetsItsClosedForms := fun a b =>
  ⟨alu_add_toNat_mod a b, alu_add_carry_mod a b, alu_add_zero_mod a b, alu_add_spells_sum a b,
    alu_subtract_toInt_mod a b, alu_subtract_carry_mod a b, alu_subtract_zero_mod a b,
    alu_subtract_spells_difference a b⟩

/-- Settles O8: `eval_rippleNet` is the chain, and the unit's netlist is the chain over the unit's own stages. -/
theorem adderNetlistsComputeTheAlu : Obligations.AdderNetlistsComputeTheAlu := by
  refine ⟨eval_rippleNet, fun a b op => ⟨?_, congrArg Prod.snd (eval_aluNet a b op)⟩⟩
  exact congrArg (fun chain => mask4 (bitsToNat chain.1)) (eval_aluNet a b op)

/-- Settles O1: each row is a row of `evaluate`. -/
theorem gatesFollowTheirTruthTables : Obligations.GatesFollowTheirTruthTables :=
  ⟨⟨rfl, rfl, rfl, rfl⟩, ⟨rfl, rfl, rfl, rfl⟩, ⟨rfl, rfl, rfl, rfl⟩⟩

/-- Settles O2: the two gates by definition, the rows by evaluating them. -/
theorem halfAdderComputesSumAndCarry : Obligations.HalfAdderComputesSumAndCarry :=
  ⟨fun _ _ => ⟨rfl, rfl⟩, rfl, rfl, rfl, rfl⟩

/-- Settles O3: structure and sum by definition, the carry as the majority, and `fullAdder_toNat` for the integer
law. -/
theorem fullAdderAddsThreeBits : Obligations.FullAdderAddsThreeBits := by
  intro a b c
  have hlaw := fullAdder_toNat a b c
  exact ⟨rfl, rfl, fullAdder_carry_eq_majority a b c, by omega, halfAdder_carries_disjoint a b c⟩

end Sys2Proof.Machine
end

section
/-! SUPPORT. Runs of any number of cycles: they exist, answer one state, can be joined, and carry an invariant of the
step (41_fsm_cycle.md R99). -/

namespace Sys2Proof.Machine

theorem exists_runsTo (k : Nat) (s : State) : ∃ t, runsTo k s t := by
  induction k generalizing s with
  | zero => exact ⟨s, runsTo_zero.mpr rfl⟩
  | succ k ih =>
    obtain ⟨u, hu⟩ := exists_step_eq_next s
    obtain ⟨t, ht⟩ := ih u
    exact ⟨t, (runsTo_succ hu).mpr ht⟩

theorem runsTo_unique {k : Nat} {s t t' : State} (h : runsTo k s t) (h' : runsTo k s t') : t = t' :=
  Host.Outcome.next.inj (h.symm.trans h')

theorem exists_step_of_runsTo_succ {k : Nat} {s t : State} (h : runsTo (k + 1) s t) :
    ∃ u, step s = .next u ∧ runsTo k u t := by
  obtain ⟨u, hu⟩ := exists_step_eq_next s
  exact ⟨u, hu, (runsTo_succ hu).mp h⟩

theorem runsTo_add {j k : Nat} {s u t : State} (hj : runsTo j s u) (hk : runsTo k u t) : runsTo (j + k) s t := by
  induction j generalizing s with
  | zero =>
    rw [Nat.zero_add]
    exact runsTo_zero.mp hj ▸ hk
  | succ j ih =>
    obtain ⟨v, hv, hrest⟩ := exists_step_of_runsTo_succ hj
    rw [Nat.succ_add]
    exact (runsTo_succ hv).mpr (ih hrest)

/-- What every step keeps, every run keeps. -/
theorem runsTo_keeps {P : State → Prop} (hstep : ∀ s t, P s → step s = .next t → P t) {k : Nat} {s t : State}
    (hs : P s) (h : runsTo k s t) : P t := by
  induction k generalizing s with
  | zero => exact runsTo_zero.mp h ▸ hs
  | succ k ih =>
    obtain ⟨u, hu, hrest⟩ := exists_step_of_runsTo_succ h
    exact ih (hstep s u hs hu) hrest

theorem runsTo_halted {s : State} (h : s.run = .halted) (k : Nat) : runsTo k s s := by
  induction k with
  | zero => exact runsTo_zero.mpr rfl
  | succ k ih => exact (runsTo_succ (step_halted h)).mpr ih

end Sys2Proof.Machine
end

section
/-! SUPPORT. What a cycle does to the run state: HALT alone ends a run, and leaves PC just after its own cell
(41_fsm_cycle.md R98, 44_control.md R132). -/

namespace Sys2Proof.Machine

/-- The opcode of HALT is 0xF, and no other instruction has it (30_encoding.md R54). -/
theorem nextInstr_eq_halt_iff (s : State) : s.nextInstr = .halt ↔ s.memRead s.pc.toNat = 15 := by
  have hcells : ∀ op a : Nibble, instrOfCells op a = .halt ↔ op = 15 := by decide
  exact hcells _ _

/-- The state that HALT leaves, from the state its cycle starts in. -/
def State.afterHalt (s : State) : State := (s.afterFetches 1 15).setRun .halted

theorem step_halt {s : State} (hrun : s.run = .running) (h : s.memRead s.pc.toNat = 15) :
    step s = .next s.afterHalt := by
  rw [step_running_eq hrun, (nextInstr_eq_halt_iff s).mpr h]
  exact exec_halt _

/-- An execute phase other than HALT's keeps the run state. -/
theorem exec_keeps_run {i : Instr} (hi : i ≠ .halt) {s t : State} (ht : exec i s = .next t) : t.run = s.run := by
  cases execForm i with
  | accumulator _ value carry h => cases (h s).symm.trans ht; rfl
  | store a _ h => cases (h s).symm.trans ht; rfl
  | nothing _ h => cases (h s).symm.trans ht; rfl
  | halt hi' => exact absurd hi' hi

theorem step_keeps_running {s t : State} (hrun : s.run = .running) (h : s.memRead s.pc.toNat ≠ 15)
    (ht : step s = .next t) : t.run = .running := by
  rw [step_running_eq hrun] at ht
  rw [exec_keeps_run (mt (nextInstr_eq_halt_iff s).mp h) ht, State.afterFetches_run, hrun]

/-- If Halted, then just after a HALT: IR holds the opcode 0xF, and so does the cell before PC (R98). -/
def State.HaltedAfterHalt (s : State) : Prop :=
  s.run = .halted → s.ir = 15 ∧ s.memRead (s.pc.toNat + 15) = 15

theorem haltedAfterHalt_of_running {s : State} (h : s.run = .running) : s.HaltedAfterHalt :=
  fun hhalted => nomatch h.symm.trans hhalted

/-- After HALT the cell before PC is the cell it was fetched from, modulo 16. -/
theorem afterHalt_haltedAfterHalt {s : State} (h : s.memRead s.pc.toNat = 15) : s.afterHalt.HaltedAfterHalt := by
  refine fun _ => ⟨rfl, ?_⟩
  calc s.afterHalt.memRead (s.afterHalt.pc.toNat + 15)
      = s.memRead ((mask4 (s.pc.toNat + 1)).toNat + 15) := rfl
    _ = s.memRead (s.pc.toNat + 16) := s.memRead_mask4_add ..
    _ = s.memRead s.pc.toNat := by rw [← s.memRead_mod, Nat.add_mod_right, s.memRead_mod]
    _ = 15 := h

theorem step_keeps_haltedAfterHalt (s t : State) (hs : s.HaltedAfterHalt) (ht : step s = .next t) :
    t.HaltedAfterHalt := by
  cases hrun : s.run with
  | halted =>
    cases (step_halted hrun).symm.trans ht
    exact hs
  | running =>
    by_cases h : s.memRead s.pc.toNat = 15
    · cases (step_halt hrun h).symm.trans ht
      exact afterHalt_haltedAfterHalt h
    · exact haltedAfterHalt_of_running (step_keeps_running hrun h ht)

/-- Running on a memory of zeros, which executes as NOPs without end. -/
def State.RunsNops (s : State) : Prop := s.run = .running ∧ s.mem = []

theorem step_keeps_runsNops (s t : State) (hs : s.RunsNops) (ht : step s = .next t) : t.RunsNops := by
  obtain ⟨hrun, hmem⟩ := hs
  have hinstr : s.nextInstr = .nop := by
    simp only [State.nextInstr, State.memRead_eq, hmem, Memory.read_nil]
    rfl
  rw [step_running_eq hrun, hinstr] at ht
  cases ht
  exact ⟨hrun, hmem⟩

end Sys2Proof.Machine
end

section
/-! SUPPORT. The bounded `run()` is the run of that many cycles, and how it ends is read off the state it ends in
(41_fsm_cycle.md R96; log 6). -/

namespace Sys2Proof.Machine

/-- How a bounded run that stops at a state came to its end. -/
def endAt (t : State) : RunEnd :=
  match t.run with
  | .halted => .halted t
  | .running => .outOfFuel t

theorem endAt_halted {t : State} (h : t.run = .halted) : endAt t = .halted t := by
  simp only [endAt, h]

theorem endAt_running {t : State} (h : t.run = .running) : endAt t = .outOfFuel t := by
  simp only [endAt, h]

theorem runBounded_halted {s : State} (h : s.run = .halted) (fuel : Nat) :
    runBounded fuel s = .next (.halted s) := by
  cases fuel <;> simp only [runBounded, h]

theorem runBounded_zero (s : State) : runBounded 0 s = .next (endAt s) := by
  cases h : s.run with
  | halted => rw [runBounded_halted h, endAt_halted h]
  | running => simp only [runBounded, endAt, h]

theorem runBounded_succ {s u : State} (hrun : s.run = .running) (hu : step s = .next u) (fuel : Nat) :
    runBounded (fuel + 1) s = runBounded fuel u := by
  simp only [runBounded, hrun, hu]

/-- A bounded `run()` ends where its cycles end: it stops at a Halted state, and the cycles left over change nothing. -/
theorem runBounded_of_runsTo {fuel : Nat} {s t : State} (h : runsTo fuel s t) :
    runBounded fuel s = .next (endAt t) := by
  induction fuel generalizing s with
  | zero => rw [runBounded_zero, runsTo_zero.mp h]
  | succ fuel ih =>
    cases hrun : s.run with
    | halted =>
      cases runsTo_unique h (runsTo_halted hrun _)
      rw [runBounded_halted hrun, endAt_halted hrun]
    | running =>
      obtain ⟨u, hu, hrest⟩ := exists_step_of_runsTo_succ h
      rw [runBounded_succ hrun hu, ih hrest]

theorem runBounded_eq_halted {fuel : Nat} {s t : State} (h : runsTo fuel s t) (ht : t.run = .halted) :
    runBounded fuel s = .next (.halted t) := by
  rw [runBounded_of_runsTo h, endAt_halted ht]

theorem runBounded_eq_outOfFuel {fuel : Nat} {s t : State} (h : runsTo fuel s t) (ht : t.run = .running) :
    runBounded fuel s = .next (.outOfFuel t) := by
  rw [runBounded_of_runsTo h, endAt_running ht]

/-! The host's operations that run the processor (60_exceptions.md R151). -/

theorem hostOp_cycle {s t : State} (h : step s = .next t) : hostOp .cycle s = .next (t, .nothing) := by
  simp only [hostOp, h]

theorem hostOp_run_halted {fuel : Nat} {s t : State} (h : runBounded fuel s = .next (.halted t)) :
    hostOp (.run fuel) s = .next (t, .nothing) := by
  simp only [hostOp, h]

theorem hostOp_run_outOfFuel {fuel : Nat} {s t : State} (h : runBounded fuel s = .next (.outOfFuel t)) :
    hostOp (.run fuel) s = .next (t, .stillRunning) := by
  simp only [hostOp, h]

end Sys2Proof.Machine
end

section
/-! The statements of the cycle family, settled (41_fsm_cycle.md). -/

namespace Sys2Proof.Machine

/-- Settles O33: by induction on the number of cycles. -/
theorem haltedProcessorIsInert : Obligations.HaltedProcessorIsInert :=
  fun k _ h => runsTo_halted h k

/-- Settles O43: every step answers, so every run exists; without a HALT at PC each step of the run stays Running. -/
theorem everyStateHasANextState : Obligations.EveryStateHasANextState := by
  refine ⟨exists_step_eq_next, exists_runsTo, fun s hrun hno k => ?_⟩
  induction k generalizing s with
  | zero => exact fun t h => runsTo_zero.mp h ▸ hrun
  | succ k ih =>
    intro t h
    obtain ⟨u, hu, hrest⟩ := exists_step_of_runsTo_succ h
    have hrunU : u.run = .running := step_keeps_running hrun (hno 0 s (runsTo_zero.mpr rfl)) hu
    exact ih u hrunU (fun j v hv => hno (j + 1) v ((runsTo_succ hu).mpr hv)) t hrest

/-- Settles O44: the run of `fuel` cycles ends Halted or Running. If Halted, further cycles change nothing, and PC
stands just after a HALT since every step keeps that. -/
theorem boundedRunEndsInHalted : Obligations.BoundedRunEndsInHalted := by
  intro fuel s
  obtain ⟨t, ht⟩ := exists_runsTo fuel s
  cases hrun : t.run with
  | halted =>
    have hmore (more : Nat) : runsTo (fuel + more) s t := runsTo_add ht (runsTo_halted hrun more)
    refine .inl ⟨t, runBounded_eq_halted ht hrun, hrun, ht, fun more => runBounded_eq_halted (hmore more) hrun,
      fun hs => ?_⟩
    exact runsTo_keeps step_keeps_haltedAfterHalt (haltedAfterHalt_of_running hs) ht hrun
  | running => exact .inr ⟨t, runBounded_eq_outOfFuel ht hrun, hrun, ht⟩

/-- Settles O54: `run()` replies by how the run of `fuel` cycles ends, and the reset state runs NOPs at every bound. -/
theorem hostCycleAndRunStepTheMachine : Obligations.HostCycleAndRunStepTheMachine := by
  refine ⟨fun s => ?_, fun fuel s => ?_, State.reset, fun fuel => ?_⟩
  · obtain ⟨t, ht⟩ := exists_step_eq_next s
    exact ⟨t, ht, hostOp_cycle ht⟩
  · obtain ⟨t, ht⟩ := exists_runsTo fuel s
    refine ⟨t, ht, ?_⟩
    cases hrun : t.run with
    | halted =>
      have hend := runBounded_eq_halted ht hrun
      exact .inl ⟨rfl, hend, hostOp_run_halted hend⟩
    | running =>
      have hend := runBounded_eq_outOfFuel ht hrun
      exact .inr ⟨rfl, hend, hostOp_run_outOfFuel hend⟩
  · obtain ⟨t, ht⟩ := exists_runsTo fuel State.reset
    obtain ⟨hrun, -⟩ : t.RunsNops := runsTo_keeps step_keeps_runsNops ⟨rfl, rfl⟩ ht
    exact ⟨t, hostOp_run_outOfFuel (runBounded_eq_outOfFuel ht hrun)⟩

/-- Settles O20: the two cells at PC fix the instruction and the state its fetches leave. -/
theorem stepRunsTheDecodedInstruction : Obligations.StepRunsTheDecodedInstruction :=
  fun _ _ _ hrun hdecode => step_of_decodeCells hrun hdecode

/-- Settles O21: `fetch_eq` says what a fetch returns and leaves. -/
theorem fetchReadsTheCellAtPc : Obligations.FetchReadsTheCellAtPc := by
  intro s
  rw [fetch_eq]
  exact ⟨rfl, rfl, toNat_mask4 (s.pc.toNat + 1), rfl⟩

end Sys2Proof.Machine
end

section
/-! SUPPORT. The cycles of LOAD and LDI, from the opcode cell at PC, and the carry flag each execute phase can leave
(42_data_transfer.md R110, R112). -/

namespace Sys2Proof.Machine

theorem nextInstr_of_opcodeCell {s : State} {op : Nibble} (h : s.memRead s.pc.toNat = op) :
    s.nextInstr = instrOfCells op (s.memRead (s.pc.toNat + 1)) := by
  rw [State.nextInstr, h]

/-- What LOAD, LDI, ADD and SUB write, field by field (10_state.md R16). -/
theorem writeAccumulator_eq (s : State) (v : Nibble) (carry : Bool) :
    s.writeAccumulator v carry = { s with ac := v, z := decide (v = 0), c := carry } := by
  rw [← zeroFlag_nibble]
  rfl

theorem step_load {s : State} {a : Nibble} (hrun : s.run = .running) (h : s.nextInstr = .load a) :
    step s = .next ((s.afterFetches 2 a).writeAccumulator (s.addressedCell a) false) := by
  rw [step_running_eq hrun, h]
  exact exec_load a _

theorem step_ldi {s : State} {v : Nibble} (hrun : s.run = .running) (h : s.nextInstr = .ldi v) :
    step s = .next ((s.afterFetches 2 v).writeAccumulator v false) := by
  rw [step_running_eq hrun, h]
  exact exec_ldi v _

/-- 15 + 1 carries, and 15 - 1 does not borrow. -/
theorem accumulate_fifteen_one_c (a : Nibble) (op : AluOp) :
    (((State.reset.memWrite (operandAddress a) 1).setReg .ac 15).accumulate a op).c = true := by
  have hcell : ((State.reset.memWrite (operandAddress a) 1).setReg .ac 15).addressedCell a = mask4 1 :=
    addressedCell_memWrite State.reset a 1
  rw [accumulate_c, hcell, State.setReg_ac_ac]
  cases op <;> decide

/-- LOAD and LDI clear C in every state; every other instruction leaves it set from some state: ADD and SUB by the
unit's carry, the rest by keeping it. -/
theorem exec_clears_c_iff (i : Instr) :
    (∀ s t : State, exec i s = .next t → t.c = false) ↔ (∃ a, i = .load a) ∨ ∃ v, i = .ldi v := by
  constructor
  · intro hclear
    have hset {s t : State} (ht : exec i s = .next t) (hc : t.c = true) : False :=
      Bool.false_ne_true ((hclear s t ht).symm.trans hc)
    cases execForm i with
    | accumulator hi =>
      obtain ⟨a, rfl | rfl | rfl | rfl⟩ := hi
      · exact .inl ⟨a, rfl⟩
      · exact .inr ⟨a, rfl⟩
      · exact (hset (exec_add a _) (accumulate_fifteen_one_c a .add)).elim
      · exact (hset (exec_sub a _) (accumulate_fifteen_one_c a .subtract)).elim
    | store a _ h => exact (hset (h (State.reset.setFlags false true)) rfl).elim
    | nothing _ h => exact (hset (h (State.reset.setFlags false true)) rfl).elim
    | halt _ h => exact (hset (h (State.reset.setFlags false true)) rfl).elim
  · rintro (⟨a, rfl⟩ | ⟨v, rfl⟩) s t ht
    · cases (exec_load a s).symm.trans ht
      rfl
    · cases (exec_ldi v s).symm.trans ht
      rfl

/-- A write into the operand cell changes the operand, reduced modulo 16, and not the opcode (20_memory.md R33). -/
theorem nextInstr_memWrite_operandCell (s : State) (byte : Nat) :
    (s.memWrite (s.pc.toNat + 1) byte).nextInstr = instrOfCells (s.memRead s.pc.toNat) (mask4 byte) := by
  have hne : s.pc.toNat % 16 ≠ (s.pc.toNat + 1) % 16 := by omega
  rw [State.nextInstr, State.memWrite_pc, State.memRead_memWrite, State.memRead_memWrite, if_neg hne, if_pos rfl]

end Sys2Proof.Machine
end

section
/-! The statements of the data transfer family, settled (42_data_transfer.md). -/

namespace Sys2Proof.Machine

/-- Settles O25: LOAD writes the accumulator with the addressed cell and carry 0, which in its own two cells is the
opcode or the operand. -/
theorem loadReadsTheAddressedCell : Obligations.LoadReadsTheAddressedCell := by
  refine ⟨fun a s => ?_, fun s hrun hop => ?_, exec_clears_c_iff⟩
  · rw [exec_load, writeAccumulator_eq]
    rfl
  · intro a v
    refine ⟨?_, fun ha => ?_, fun ha => ?_⟩
    · rw [step_load hrun (nextInstr_of_opcodeCell hop), writeAccumulator_eq]
      rfl
    · calc v = s.memRead s.pc.toNat := congrArg (fun cell : Nibble => s.memRead cell.toNat) ha
        _ = 1 := hop
    · calc v = s.memRead (s.pc + 1).toNat := congrArg (fun cell : Nibble => s.memRead cell.toNat) ha
        _ = a := s.memRead_add_one s.pc

/-- Settles O26: STORE is one memory write, and the next fetch reads cell `p + 2` from memory as stored. -/
theorem storeWritesTheAccumulator : Obligations.StoreWritesTheAccumulator := by
  refine ⟨fun a s => ⟨_, exec_store a s, rfl, fun x => ?_⟩, fun s hrun hop => ?_⟩
  · rw [State.memRead_memWrite, mask4_toNat]
  · intro a
    refine ⟨_, step_store hrun (nextInstr_of_opcodeCell hop), rfl, fun x => ?_, fun ha => ?_⟩
    · rw [State.afterStore_memRead, operandAddress_mod]
    · have hnext : (s.afterStore a).pc = a := by
        rw [State.afterStore_pc, ha]
        exact BitVec.eq_of_toNat_eq (by simp)
      calc (fetch (s.afterStore a)).1 = (s.afterStore a).memRead (operandAddress a) := by rw [fetch_eq, hnext]; rfl
        _ = s.ac := by rw [State.afterStore_memRead, operandAddress_mod, if_pos rfl]

/-- Settles O27: LDI writes the accumulator with its operand cell and carry 0; cell 16 is cell 0, and a byte written
into the operand cell is reduced by the write. -/
theorem ldiLoadsItsOperand : Obligations.LdiLoadsItsOperand := by
  refine ⟨fun v s => ?_, fun s hrun hop => ?_⟩
  · rw [exec_ldi, writeAccumulator_eq]
  · intro v
    refine ⟨?_, fun hpc => ?_, fun byte => ?_⟩
    · rw [step_ldi hrun (nextInstr_of_opcodeCell hop), writeAccumulator_eq]
      rfl
    · calc v = s.memRead ((15 : Nibble).toNat + 1) := by rw [← hpc]
        _ = s.memRead 0 := (s.memRead_mod 16).symm
    · have hinstr : (s.memWrite (s.pc.toNat + 1) byte).nextInstr = .ldi (mask4 byte) := by
        rw [nextInstr_memWrite_operandCell, hop]
        rfl
      exact ⟨_, step_ldi (s := s.memWrite (s.pc.toNat + 1) byte) hrun hinstr, toNat_mask4 byte⟩

end Sys2Proof.Machine
end

section
/-! SUPPORT. The cycles of ADD and SUB, and what `State.accumulate` leaves, in numbers (43_arithmetic.md R120, R121). -/

namespace Sys2Proof.Machine

theorem step_add {s : State} {a : Nibble} (hrun : s.run = .running) (h : s.nextInstr = .add a) :
    step s = .next ((s.afterFetches 2 a).accumulate a .add) := by
  rw [step_running_eq hrun, h]
  exact exec_add a _

theorem step_sub {s : State} {a : Nibble} (hrun : s.run = .running) (h : s.nextInstr = .sub a) :
    step s = .next ((s.afterFetches 2 a).accumulate a .subtract) := by
  rw [step_running_eq hrun, h]
  exact exec_sub a _

/-- ADD and SUB write AC and the flags only (10_state.md R16). -/
theorem accumulate_frame (s : State) (a : Nibble) (op : AluOp) :
    s.accumulate a op =
      { s with ac := (s.accumulate a op).ac, z := (s.accumulate a op).z, c := (s.accumulate a op).c } := rfl

/-- The incoming flags are no input of the unit (10_state.md R17). -/
theorem accumulate_setFlags (s : State) (a : Nibble) (op : AluOp) (z c : Bool) :
    (s.setFlags z c).accumulate a op = s.accumulate a op := rfl

/-- PC and IR are no input of the unit: the fetches before it only show in the frame. -/
theorem accumulate_afterFetches (s : State) (n : Nat) (v a : Nibble) (op : AluOp) :
    (s.afterFetches n v).accumulate a op = (s.accumulate a op).afterFetches n v := rfl

theorem accumulate_z_eq_ac_test (s : State) (a : Nibble) (op : AluOp) :
    (s.accumulate a op).z = decide ((s.accumulate a op).ac = 0) := accumulate_z s a op

theorem accumulate_add_ac_toNat (s : State) (a : Nibble) :
    (s.accumulate a .add).ac.toNat = (s.ac.toNat + (s.addressedCell a).toNat) % 16 := by
  rw [accumulate_ac, alu_add_toNat]

theorem accumulate_add_c (s : State) (a : Nibble) :
    (s.accumulate a .add).c = decide (16 ≤ s.ac.toNat + (s.addressedCell a).toNat) := by
  rw [accumulate_c, alu_add_carry]

theorem accumulate_subtract_ac_toInt (s : State) (a : Nibble) :
    ((s.accumulate a .subtract).ac.toNat : Int) = ((s.ac.toNat : Int) - (s.addressedCell a).toNat) % 16 := by
  rw [accumulate_ac, alu_subtract_toNat]
  omega

theorem accumulate_subtract_c (s : State) (a : Nibble) :
    (s.accumulate a .subtract).c = decide ((s.addressedCell a).toNat ≤ s.ac.toNat) := by
  rw [accumulate_c, alu_subtract_carry]

/-- The difference is 0 only for equal operands, so Z of SUB compares AC with the cell (R121). -/
theorem accumulate_subtract_z (s : State) (a : Nibble) :
    (s.accumulate a .subtract).z = decide (s.ac = s.addressedCell a) := by
  rw [accumulate_z, ← alu_zero, alu_subtract_zero_mod, decide_eq_decide, ← mask4_eq_mask4_iff, mask4_toNat,
    mask4_toNat]

/-- An operand that names its own opcode cell reads the opcode (43_arithmetic.md R120, R121). -/
theorem addressedCell_of_eq_pc {s : State} {a op : Nibble} (hop : s.memRead s.pc.toNat = op) (ha : a = s.pc) :
    s.addressedCell a = op := by
  rw [ha]
  exact hop

/-- An operand that names its own cell reads itself (43_arithmetic.md R120). -/
theorem addressedCell_of_eq_pc_add_one {s : State} (ha : s.memRead (s.pc.toNat + 1) = s.pc + 1) :
    s.addressedCell (s.memRead (s.pc.toNat + 1)) = s.memRead (s.pc.toNat + 1) :=
  calc s.addressedCell (s.memRead (s.pc.toNat + 1)) = s.memRead (s.pc + 1).toNat := congrArg s.addressedCell ha
    _ = s.memRead (s.pc.toNat + 1) := s.memRead_add_one s.pc

end Sys2Proof.Machine
end

section
/-! The statements of the arithmetic family, settled (43_arithmetic.md). -/

namespace Sys2Proof.Machine

/-- Settles O28: the execute phase is `accumulate` with Add, whose fields are the unit's sum, its carry and its zero
test, and the cycle is that after two fetches. -/
theorem addWritesSumAndFlags : Obligations.AddWritesSumAndFlags := by
  refine ⟨fun a s => ?_, fun s hrun hop => ?_⟩
  · exact ⟨_, exec_add a s, accumulate_frame s a .add, accumulate_ac s a .add, accumulate_add_ac_toNat s a,
      accumulate_add_c s a, accumulate_z_eq_ac_test s a .add,
      fun z c => congrArg Host.Outcome.next (accumulate_setFlags s a .add z c)⟩
  · intro a m
    refine ⟨addressedCell_of_eq_pc hop, addressedCell_of_eq_pc_add_one, _,
      step_add hrun (nextInstr_of_opcodeCell hop), ?_⟩
    rw [accumulate_afterFetches]
    exact ⟨rfl, accumulate_add_ac_toNat s a, accumulate_add_c s a, accumulate_z_eq_ac_test s a .add⟩

/-- Settles O29: as O28 with Subtract, whose carry is no borrow and whose zero test compares AC with the cell. -/
theorem subWritesDifferenceAndFlags : Obligations.SubWritesDifferenceAndFlags := by
  refine ⟨fun a s => ?_, fun s hrun hop => ?_⟩
  · exact ⟨_, exec_sub a s, accumulate_frame s a .subtract, accumulate_ac s a .subtract,
      accumulate_subtract_ac_toInt s a, accumulate_subtract_c s a, accumulate_z_eq_ac_test s a .subtract,
      accumulate_subtract_z s a, fun z c => congrArg Host.Outcome.next (accumulate_setFlags s a .subtract z c)⟩
  · intro a m
    refine ⟨addressedCell_of_eq_pc hop, _, step_sub hrun (nextInstr_of_opcodeCell hop), ?_⟩
    rw [accumulate_afterFetches]
    exact ⟨rfl, accumulate_subtract_ac_toInt s a, accumulate_subtract_c s a, accumulate_subtract_z s a⟩

end Sys2Proof.Machine
end

section
/-! SUPPORT. The cycle of a NoOp opcode, and what the host can do to a Halted processor (44_control.md R130 to R132). -/

namespace Sys2Proof.Machine

theorem exec_of_actsAsNop {i : Instr} (hi : ActsAsNop i) (s : State) : exec i s = .next s := by
  cases execForm i with
  | accumulator hw => obtain ⟨a, rfl | rfl | rfl | rfl⟩ := hw <;> simp [ActsAsNop] at hi
  | store a hs => subst hs; simp [ActsAsNop] at hi
  | nothing _ h => exact h s
  | halt hh => subst hh; simp [ActsAsNop] at hi

/-- The opcodes whose instruction is a NoOp: 0, and the undefined ones, 6 to 14 (30_encoding.md R54, R55). -/
def NoOpOpcode (op : Nibble) : Prop := op = 0 ∨ 6 ≤ op.toNat ∧ op.toNat ≤ 14

theorem actsAsNop_instrOfCells {op : Nibble} (hop : NoOpOpcode op) (a : Nibble) : ActsAsNop (instrOfCells op a) := by
  revert op a
  unfold NoOpOpcode ActsAsNop
  decide

theorem takesOperand_of_noOpOpcode {op : Nibble} (hop : NoOpOpcode op) : takesOperand (opcodeMap op) = false := by
  rw [takesOperand_opcodeMap, decide_eq_false_iff_not]
  obtain rfl | ⟨hlow, -⟩ := hop
  · decide
  · omega

/-- A NoOp's cycle is its one fetch. -/
theorem step_noOp {s : State} {op : Nibble} (hrun : s.run = .running) (h : s.memRead s.pc.toNat = op)
    (hop : NoOpOpcode op) : step s = .next (s.afterFetches 1 op) := by
  have hlength : encode s.nextInstr = [op] := by
    rw [nextInstr_of_opcodeCell h, encode_instrOfCells, takesOperand_of_noOpOpcode hop]
    rfl
  have hnop : ActsAsNop s.nextInstr := nextInstr_of_opcodeCell h ▸ actsAsNop_instrOfCells hop _
  rw [step_running_eq hrun, exec_of_actsAsNop hnop, hlength]
  rfl

/-- No host operation but the power-on reset writes the run state; `cycle()` and `run()` leave a Halted processor as it
is (60_exceptions.md R151; 92 D6). -/
theorem hostOp_keeps_halted {op : HostOp} (hop : op ≠ .powerOn) {s : State} (h : s.run = .halted) :
    ∃ t r, hostOp op s = .next (t, r) ∧ t.run = .halted := by
  cases op with
  | powerOn => exact absurd rfl hop
  | cycle => exact ⟨s, _, hostOp_cycle (step_halted h), h⟩
  | run fuel => exact ⟨s, _, hostOp_run_halted (runBounded_halted h fuel), h⟩
  | writeRegister r value => exact ⟨_, _, rfl, (State.setReg_run ..).trans h⟩
  | _ => exact ⟨_, _, rfl, h⟩

end Sys2Proof.Machine
end

section
/-! The statements of the control family, settled (44_control.md). -/

namespace Sys2Proof.Machine

/-- Settles O31: the nine execute as NOP by `exec_of_actsAsNop`, their cycle is one fetch, and the next fetch reads the
cell after it. -/
theorem undefinedOpcodesActAsNop : Obligations.UndefinedOpcodesActAsNop := by
  refine ⟨fun s => ?_, fun s hrun hlow hhigh => ?_⟩
  · refine ⟨?_, ?_, ?_, ?_, ?_, ?_, ?_, ?_, ?_⟩ <;> exact exec_of_actsAsNop (by simp [ActsAsNop]) s
  · exact ⟨_, step_noOp hrun rfl (.inr ⟨hlow, hhigh⟩), rfl, congrArg Prod.fst (fetch_afterFetches s _)⟩

/-- Settles O32: HALT's cycle leaves a Halted state, which cycles, bounded runs and every host operation but power-on
keep Halted; every other execute phase keeps the run state. -/
theorem haltStopsUntilReset : Obligations.HaltStopsUntilReset := by
  refine ⟨exec_halt, fun s hrun hop => ?_, fun i s => ?_, fun op s h hop => hostOp_keeps_halted hop h⟩
  · have hhalted : s.afterHalt.run = .halted := rfl
    exact ⟨s.afterHalt, step_halt hrun hop, rfl, step_halted hhalted, runBounded_halted hhalted⟩
  · by_cases hi : i = .halt
    · exact ⟨s.setRun .halted, by rw [hi, exec_halt], (if_pos hi).symm⟩
    · obtain ⟨t, ht, -⟩ := exec_keeps_pc_ir i s
      exact ⟨t, ht, (exec_keeps_run hi ht).trans (if_neg hi).symm⟩

/-- Settles O30: in memory that was never loaded, too, the cell at PC holds opcode 0. -/
theorem nopOnlyFetches : Obligations.NopOnlyFetches := by
  refine ⟨exec_of_actsAsNop (by simp [ActsAsNop]), fun s hrun hcell => ?_⟩
  have hop : s.memRead s.pc.toNat = 0 := by
    obtain hop | hmem := hcell
    · exact hop
    · rw [State.memRead_eq, hmem]
      exact Memory.read_nil _
  exact step_noOp hrun hop (.inl rfl)

/-- Settles O37: all but HALT answer the state itself, and HALT that state with another run state. -/
theorem formsWithoutResultKeepTheirFrame : Obligations.FormsWithoutResultKeepTheirFrame := by
  intro i hi s
  have hform : ActsAsNop i ∨ i = .halt := by simpa [ActsAsNop, or_assoc] using hi
  obtain hnop | rfl := hform
  · exact ⟨s, exec_of_actsAsNop hnop s, rfl, rfl, rfl, rfl, rfl, fun _ => rfl, fun _ => rfl⟩
  · exact ⟨_, exec_halt s, rfl, rfl, rfl, rfl, rfl, fun h => absurd rfl h, fun _ => rfl⟩

end Sys2Proof.Machine
end

section
/-! SUPPORT. What keeps memory in the model's canonical form (log 1), and with it the invariant of a cycle. -/

namespace Sys2Proof.Machine

/-- Of the four forms of an execute phase STORE's alone writes memory, and a write keeps the canonical form. -/
theorem exec_keeps_mem_wf {i : Instr} {s t : State} (hs : s.mem.wf) (ht : exec i s = .next t) : t.mem.wf := by
  cases execForm i with
  | accumulator _ _ _ h => cases (h s).symm.trans ht; exact hs
  | store a _ h => cases (h s).symm.trans ht; exact Memory.write_wf (operandAddress a) s.ac.toNat hs
  | nothing _ h => cases (h s).symm.trans ht; exact hs
  | halt _ h => cases (h s).symm.trans ht; exact hs

theorem step_keeps_mem_wf (s t : State) (hs : s.mem.wf) (ht : step s = .next t) : t.mem.wf := by
  cases hrun : s.run with
  | halted => cases (step_halted hrun).symm.trans ht; exact hs
  | running =>
    rw [step_running_eq hrun] at ht
    exact exec_keeps_mem_wf (by rwa [State.afterFetches_mem]) ht

/-- The invariant of the cycle, in its two parts. -/
theorem State.inv_iff (s : State) : s.inv ↔ s.mem.wf ∧ s.HaltedAfterHalt := Iff.rfl

theorem step_keeps_inv {s t : State} (hs : s.inv) (ht : step s = .next t) : t.inv := by
  obtain ⟨hwf, hhalted⟩ := s.inv_iff.mp hs
  exact t.inv_iff.mpr ⟨step_keeps_mem_wf s t hwf ht, step_keeps_haltedAfterHalt s t hhalted ht⟩

end Sys2Proof.Machine
end

section
/-! SUPPORT. What a host operation may answer: memory stays canonical, and `stillRunning` is the reply of a `run()` that
was cut off Running (60_exceptions.md R144, R151). -/

namespace Sys2Proof.Machine

/-- What an operation of the host must answer from a state with canonical memory (logs 1 and 6). -/
def AnswersCanonically (op : HostOp) (s : State) : Prop :=
  ∃ t r, hostOp op s = .next (t, r) ∧ t.mem.wf ∧ (r = .stillRunning → t.run = .running ∧ ∃ fuel, op = .run fuel)

/-- An operation other than `run()` never replies that it still runs. -/
theorem answersCanonically_of_reply {op : HostOp} {s t : State} {r : HostReply} (h : hostOp op s = .next (t, r))
    (hwf : t.mem.wf) (hr : r ≠ .stillRunning) : AnswersCanonically op s :=
  ⟨t, r, h, hwf, fun hstill => absurd hstill hr⟩

theorem answersCanonically_cycle {s : State} (hs : s.mem.wf) : AnswersCanonically .cycle s := by
  obtain ⟨t, ht⟩ := exists_step_eq_next s
  exact answersCanonically_of_reply (hostOp_cycle ht) (step_keeps_mem_wf s t hs ht) nofun

/-- A bounded `run()` ends where its cycles end, and they keep memory canonical. -/
theorem answersCanonically_run {s : State} (hs : s.mem.wf) (fuel : Nat) : AnswersCanonically (.run fuel) s := by
  obtain ⟨t, ht⟩ := exists_runsTo fuel s
  have hwf : t.mem.wf := runsTo_keeps (P := fun s => s.mem.wf) step_keeps_mem_wf hs ht
  cases hrun : t.run with
  | halted => exact answersCanonically_of_reply (hostOp_run_halted (runBounded_eq_halted ht hrun)) hwf nofun
  | running =>
    exact ⟨t, .stillRunning, hostOp_run_outOfFuel (runBounded_eq_outOfFuel ht hrun), hwf, fun _ => ⟨hrun, fuel, rfl⟩⟩

theorem answersCanonically (op : HostOp) {s : State} (hs : s.mem.wf) : AnswersCanonically op s := by
  cases op with
  | powerOn => exact answersCanonically_of_reply rfl State.reset_mem_wf nofun
  | loadProgram bytes => exact answersCanonically_of_reply rfl (Memory.loadProgram_wf bytes hs) nofun
  | write address value => exact answersCanonically_of_reply rfl (Memory.write_wf address value hs) nofun
  | clear => exact answersCanonically_of_reply rfl (Memory.clear_wf s.mem) nofun
  | writeRegister r value => exact answersCanonically_of_reply rfl ((State.setReg_mem ..).symm ▸ hs) nofun
  | cycle => exact answersCanonically_cycle hs
  | run fuel => exact answersCanonically_run hs fuel
  | _ => exact answersCanonically_of_reply rfl hs nofun

end Sys2Proof.Machine
end

section
/-! SUPPORT. What the cells hold after consecutive writes (20_memory.md R38). -/

namespace Sys2Proof.Machine

/-- Values written into consecutive cells, none past cell 15, stand there in order; every other cell keeps its value. -/
theorem Memory.read_writeCells (m : Memory) (addr : Nat) (vs : List Nat) (hfit : addr + vs.length ≤ 16) {k : Nat}
    (hk : k < 16) :
    (m.writeCells addr vs).read k =
      if addr ≤ k ∧ k < addr + vs.length then mask4 (vs.getD (k - addr) 0) else m.read k := by
  induction vs generalizing m addr with
  | nil =>
    have hnone : ¬ (addr ≤ k ∧ k < addr + 0) := by omega
    exact (if_neg hnone).symm
  | cons v vs ih =>
    rw [List.length_cons] at hfit ⊢
    rw [Memory.writeCells, ih _ _ (by omega), Memory.read_write, Nat.mod_eq_of_lt hk, Nat.mod_eq_of_lt (by omega)]
    obtain hlt | rfl | hgt := Nat.lt_trichotomy k addr
    · rw [if_neg (by omega), if_neg (by omega), if_neg (by omega)]
    · rw [if_neg (by omega), if_pos rfl, if_pos (by omega), Nat.sub_self, List.getD_cons_zero]
    · have hsub : k - addr = k - (addr + 1) + 1 := by omega
      have hiff : (addr + 1 ≤ k ∧ k < addr + 1 + vs.length) ↔ (addr ≤ k ∧ k < addr + (vs.length + 1)) := by omega
      rw [if_neg hgt.ne', hsub, List.getD_cons_succ]
      simp only [hiff]

/-- Of a load only the first 16 values are written, from cell 0 on (R38). -/
theorem Memory.read_loadProgram (m : Memory) (bytes : List Nat) {k : Nat} (hk : k < 16) :
    (m.loadProgram bytes).read k = if k < bytes.length then mask4 (bytes.getD k 0) else m.read k := by
  have hlength : (bytes.take 16).length = min 16 bytes.length := List.length_take
  have hkept : (bytes.take 16).getD k 0 = bytes.getD k 0 := by simp [List.getD, hk]
  have hiff : (0 ≤ k ∧ k < 0 + (bytes.take 16).length) ↔ k < bytes.length := by omega
  rw [Memory.loadProgram, cellCount_eq, Memory.read_writeCells m 0 _ (by omega) hk, Nat.sub_zero, hkept]
  simp only [hiff]

end Sys2Proof.Machine
end

section
/-! SUPPORT. The cells that decode to an instruction, and the cells of a source line (30_encoding.md R50, R59, R60). -/

namespace Sys2Proof.Machine

theorem encode_of_opcodeMap_noOperand {op : Nibble} {i : Instr} (h : opcodeMap op = .noOperand i) :
    encode i = [op] := by
  simpa [instrOfCells, takesOperand, h] using encode_instrOfCells op 0

theorem encode_of_opcodeMap_withOperand {op : Nibble} {mk : Nibble → Instr} (h : opcodeMap op = .withOperand mk)
    (a : Nibble) : encode (mk a) = [op, a] := by
  simpa [instrOfCells, takesOperand, h] using encode_instrOfCells op a

theorem assembleLine_of_wf {l : AsmLine} (h : l.wf = true) : assembleLine l = some (lineCells l) := if_pos h

/-- The check of R60 is on the number that a line carries. -/
theorem AsmLine.wf_of_operand {l : AsmLine} {v : Nat} (h : l.operand = some v) : l.wf = decide (v ≤ 15) := by
  simp only [AsmLine.wf, h]

theorem assembleLine_of_operand_le {l : AsmLine} {v : Nat} (h : l.operand = some v) (hv : v ≤ 15) :
    assembleLine l = some (lineCells l) :=
  assembleLine_of_wf (by rw [AsmLine.wf_of_operand h, decide_eq_true hv])

theorem assembleLine_of_operand_gt {l : AsmLine} {v : Nat} (h : l.operand = some v) (hv : 15 < v) :
    assembleLine l = none :=
  if_neg (by rw [AsmLine.wf_of_operand h, decide_eq_true_eq]; omega)

theorem eq_lineCells_of_assembleLine {l : AsmLine} {cells : List Nibble} (h : assembleLine l = some cells) :
    cells = lineCells l := by
  unfold assembleLine at h
  split at h
  · exact (Option.some.inj h).symm
  · cases h

/-- Every line but the data directive gives the cells of an instruction (R59). -/
theorem lineCells_eq_encode {l : AsmLine} (hl : ∀ v, l ≠ .cell v) : ∃ i, lineCells l = encode i := by
  cases l with
  | cell v => exact absurd rfl (hl v)
  | _ => exact ⟨_, rfl⟩

theorem assemble_cons (l : AsmLine) (ls : List AsmLine) :
    assemble (l :: ls) = (assembleLine l).bind fun cells => (assemble ls).map fun rest => cells ++ rest := by
  rw [assemble]
  cases assembleLine l with
  | none => rfl
  | some cells => cases assemble ls <;> rfl

theorem assemble_append (ls ms : List AsmLine) :
    assemble (ls ++ ms) = (assemble ls).bind fun cells => (assemble ms).map fun more => cells ++ more := by
  induction ls with
  | nil => simp [assemble]
  | cons l ls ih =>
    rw [List.cons_append, assemble_cons, assemble_cons, ih]
    simp [Option.bind_assoc, Option.map_bind, Option.bind_map, Function.comp_def]

end Sys2Proof.Machine
end

section
/-! The remaining statements, settled: the invariant, the host's operations, loading, assembling and gate depths. -/

namespace Sys2Proof.Machine

/-- Settles O45: every state has a next state, and a step keeps each of the invariant's two parts. -/
theorem stepKeepsInvariant : Obligations.StepKeepsInvariant := by
  intro s hs
  obtain ⟨t, ht⟩ := exists_step_eq_next s
  exact ⟨t, ht, step_keeps_inv hs ht⟩

/-- Settles O12: a load is consecutive writes from cell 0 of the first 16 values. -/
theorem loadProgramFillsTheFirstCells : Obligations.LoadProgramFillsTheFirstCells :=
  fun s bytes => ⟨s.loadProgram bytes, rfl, rfl, fun _ hk => Memory.read_loadProgram s.mem bytes hk⟩

/-- Settles O17: the opcode map gives the instruction whose encoding is the opcode, with the operand where there is
one. -/
theorem encodeOfDecodeIsTheCells : Obligations.EncodeOfDecodeIsTheCells := by
  intro cells i rest h
  cases cells with
  | nil => cases h
  | cons op tail =>
    cases hop : opcodeMap op with
    | noOperand j =>
      cases (decodeCells_noOperand hop tail).symm.trans h
      rw [encode_of_opcodeMap_noOperand hop, List.singleton_append]
    | withOperand mk =>
      cases tail with
      | nil => simp [decodeCells, hop] at h
      | cons a tail =>
        cases (decodeCells_withOperand hop a tail).symm.trans h
        rw [encode_of_opcodeMap_withOperand hop]
        rfl

/-- Settles O19: a line that passes the check gives its cells, which but for `.cell` are those of an instruction and so
decode to it. -/
theorem assemblerEncodesOrRejects : Obligations.AssemblerEncodesOrRejects := by
  refine ⟨fun l v => assembleLine_of_operand_gt, ⟨rfl, rfl⟩, fun v hv => ?_, fun l cells h hl => ?_, assemble_append⟩
  · have hcells {l : AsmLine} (hl : l.operand = some v) : assembleLine l = some (lineCells l) :=
      assembleLine_of_operand_le hl hv
    exact ⟨hcells rfl, hcells rfl, hcells rfl, hcells rfl, hcells rfl, hcells rfl⟩
  · obtain ⟨i, hi⟩ := lineCells_eq_encode hl
    refine ⟨i, fun rest => ?_⟩
    rw [eq_lineCells_of_assembleLine h, hi]
    exact decodeOfEncodeIsTheInstruction i rest

/-- Settles O48: the resets by the values they write; every host operation but power-on keeps Halted. -/
theorem onlyPowerOnLeavesHalted : Obligations.OnlyPowerOnLeavesHalted := by
  refine ⟨fun s => ⟨rfl, rfl⟩, fun s => rfl, fun s => rfl, fun op s t r hhalted h hrunning => ?_⟩
  by_contra hop
  obtain ⟨t', r', h', hhalted'⟩ := hostOp_keeps_halted hop hhalted
  cases h'.symm.trans h
  cases hhalted'.symm.trans hrunning

/-- Settles O50: each operation by `answersCanonically`. -/
theorem hostOperationsKeepCanonicalMemory : Obligations.HostOperationsKeepCanonicalMemory :=
  fun op _ hs => answersCanonically op hs

/-- Settles O9: each clause is the depth of one closed netlist, computed. -/
theorem gateDepthsAreTheListedCounts : Obligations.GateDepthsAreTheListedCounts :=
  ⟨rfl, rfl, rfl, rfl, rfl, rfl, rfl, rfl⟩

/-- Settles O14: the list is read off cell by cell, in the order of the addresses. -/
theorem dumpListsTheCellsInAddressOrder : Obligations.DumpListsTheCellsInAddressOrder := by
  refine fun s => ⟨s.mem.dump, rfl, Memory.length_dump s.mem, fun k hk => ?_⟩
  have hk : k < s.mem.dump.length := by rwa [Memory.length_dump]
  rw [List.getElem?_eq_getElem hk, Memory.getElem_dump, State.memRead_eq]

/-- Settles O46: the memory at reset is canonical, and the reset state is Running. -/
theorem resetMeetsInvariant : Obligations.ResetMeetsInvariant :=
  (State.inv_iff _).mpr ⟨State.reset_mem_wf, haltedAfterHalt_of_running rfl⟩

/-- Settles O53: a read of the host answers `readReg` or `readBit` of the state and the state itself. -/
theorem hostReadsAnswerTheNamedElement : Obligations.HostReadsAnswerTheNamedElement :=
  fun _ => ⟨rfl, rfl, rfl, rfl, rfl, rfl⟩

end Sys2Proof.Machine
end
